-- ==== Sys2Proof/Word.lean ====
section
/-! DEFINITION. The word types of the machine (00_scope.md R6, R7). -/

namespace Sys2Proof

/-- A byte: 8 bits, the width of a `V` register, a timer and a memory cell (R6). -/
abbrev Byte := BitVec 8

/-- A 16-bit instruction word (R90). -/
abbrev Word := BitVec 16

/-- A 16-bit address: the width of `I`, of `PC` and of a stack entry (R6). -/
abbrev Addr := BitVec 16

/-- The 12-bit immediate `NNN` (R91). -/
abbrev Imm12 := BitVec 12

/-- A nibble: the 4-bit immediate `N` and the opcode class (R7, R91). -/
abbrev Nibble := BitVec 4

/-- The number of a general register, 0 to 15 (R21). -/
abbrev Reg := Fin 16

end Sys2Proof
end

