-- ==== Sys2Proof/Machine/Flags.lean ====
section
/-! DEFINITION. Every value the spec writes to the flag register `VF` (10_state.md R22, 42_load_alu.md R173). -/

namespace Sys2Proof.Machine

/-- A flag write stores 0x01 or 0x00 (R22). -/
def flagByte (c : Bool) : Byte := if c then 1 else 0

/-- The carry of `8XY4`: `a + b > 255` (R167, R173). -/
def carry (a b : Byte) : Bool := 255 < a.toNat + b.toNat

/-- The no-borrow flag of `8XY5` and `8XY7`: the minuend is at least the subtrahend (R168, R170, R173). -/
def noBorrow (minuend subtrahend : Byte) : Bool := subtrahend.toNat ≤ minuend.toNat

/-- The bit `8XY6` shifts out: bit 0 (R169). -/
def shiftedOutRight (b : Byte) : Bool := b.getLsbD 0

/-- The bit `8XYE` shifts out: bit 7 (R171). -/
def shiftedOutLeft (b : Byte) : Bool := b.getLsbD 7

end Sys2Proof.Machine
end

