-- ==== Sys2Proof/Config.lean ====
section
/-! DEFINITION. The free values of the model: what the spec leaves to the environment and gives no value to. -/

namespace Sys2Proof

/-- The random-byte input `Rnd()` of `CXNN` (R172, R274): the byte answered at the `n`-th draw. It has no body,
so that a statement holds for every sequence of bytes. DESIGN CHOICE in form (log entry 1), safe. -/
opaque Config.randomByte : Nat → Byte

end Sys2Proof
end

