-- ==== Sys2Proof/Machine/Unrecognized.lean ====
section
/-! DEFINITION. The unrecognised space of 30_encoding.md R100, by opcode class. It stands apart from the opcode
map of Decode.lean on purpose: that the two agree is a claim, not a definition. -/

namespace Sys2Proof.Machine

/-- R100: the words of each opcode class that are matched by no row of the opcode map. -/
def unrecognized (w : Word) : Bool :=
  match (w.extractLsb' 12 4).toNat with
  | 0x0 => w != 0x00E0#16 && w != 0x00EE#16
  | 0x5 => w.extractLsb' 0 4 != 0#4
  | 0x8 => [0x8#4, 0x9#4, 0xA#4, 0xB#4, 0xC#4, 0xD#4, 0xF#4].contains (w.extractLsb' 0 4)
  | 0x9 => w.extractLsb' 0 4 != 0#4
  | 0xE => w.extractLsb' 0 8 != 0x9E#8 && w.extractLsb' 0 8 != 0xA1#8
  | 0xF => !(([0x07#8, 0x0A#8, 0x15#8, 0x18#8, 0x1E#8, 0x29#8, 0x33#8, 0x55#8, 0x65#8] : List Byte).contains
      (w.extractLsb' 0 8))
  | _ => false

end Sys2Proof.Machine
end

