-- ==== Sys2Proof/Syntax.lean ====
section
/-! DEFINITION. The instructions: one constructor per row of spec/opcode_table.json (30_encoding.md R96). -/

namespace Sys2Proof

/-- The 34 instructions of R96 and the catch-all `UNIMPL` (R128), which carries the word that matched no row. -/
inductive Instr where
  /-- `00E0` CLS -/
  | cls
  /-- `00EE` RET -/
  | ret
  /-- `1NNN` JP -/
  | jp (nnn : Imm12)
  /-- `2NNN` CALL -/
  | call (nnn : Imm12)
  /-- `3XNN` SE_XNN -/
  | seXNN (x : Reg) (nn : Byte)
  /-- `4XNN` SNE_XNN -/
  | sneXNN (x : Reg) (nn : Byte)
  /-- `5XY0` SE_XY -/
  | seXY (x y : Reg)
  /-- `6XNN` LD_XNN -/
  | ldXNN (x : Reg) (nn : Byte)
  /-- `7XNN` ADD_XNN -/
  | addXNN (x : Reg) (nn : Byte)
  /-- `8XY0` LD_XY -/
  | ldXY (x y : Reg)
  /-- `8XY1` OR -/
  | orXY (x y : Reg)
  /-- `8XY2` AND -/
  | andXY (x y : Reg)
  /-- `8XY3` XOR -/
  | xorXY (x y : Reg)
  /-- `8XY4` ADD_XY -/
  | addXY (x y : Reg)
  /-- `8XY5` SUB -/
  | sub (x y : Reg)
  /-- `8XY6` SHR -/
  | shr (x y : Reg)
  /-- `8XY7` SUBN -/
  | subn (x y : Reg)
  /-- `8XYE` SHL -/
  | shl (x y : Reg)
  /-- `9XY0` SNE_XY -/
  | sneXY (x y : Reg)
  /-- `ANNN` LD_I -/
  | ldI (nnn : Imm12)
  /-- `BNNN` JP_V0 -/
  | jpV0 (nnn : Imm12)
  /-- `CXNN` RND -/
  | rnd (x : Reg) (nn : Byte)
  /-- `DXYN` DRW -/
  | drw (x y : Reg) (n : Nibble)
  /-- `EX9E` SKP -/
  | skp (x : Reg)
  /-- `EXA1` SKNP -/
  | sknp (x : Reg)
  /-- `FX07` LD_X_DT -/
  | ldXDt (x : Reg)
  /-- `FX0A` LD_X_K -/
  | ldXK (x : Reg)
  /-- `FX15` LD_DT_X -/
  | ldDtX (x : Reg)
  /-- `FX18` LD_ST_X -/
  | ldStX (x : Reg)
  /-- `FX1E` ADD_I_X -/
  | addIX (x : Reg)
  /-- `FX29` LD_F_X -/
  | ldFX (x : Reg)
  /-- `FX33` LD_B_X -/
  | ldBX (x : Reg)
  /-- `FX55` ST_REGS -/
  | stRegs (x : Reg)
  /-- `FX65` LD_REGS -/
  | ldRegs (x : Reg)
  /-- any other word: UNIMPL -/
  | unimpl (w : Word)
  deriving DecidableEq, Repr

end Sys2Proof
end

