-- ==== Sys2Proof/WellFormed.lean ====
section
/-! DEFINITION. Which terms of `Instr` stand for a word of the machine. -/

namespace Sys2Proof

/-- Every operand is typed at its field's width, so every value of it is legal (R93, R94); the one check is that
`unimpl` carries a word of the unrecognised space (R100). -/
def Instr.wellFormed : Instr → Bool
  | .unimpl w => Machine.unrecognized w
  | .cls | .ret | .jp _ | .call _ | .seXNN _ _ | .sneXNN _ _ | .seXY _ _ | .ldXNN _ _ | .addXNN _ _ | .ldXY _ _
  | .orXY _ _ | .andXY _ _ | .xorXY _ _ | .addXY _ _ | .sub _ _ | .shr _ _ | .subn _ _ | .shl _ _ | .sneXY _ _
  | .ldI _ | .jpV0 _ | .rnd _ _ | .drw _ _ _ | .skp _ | .sknp _ | .ldXDt _ | .ldXK _ | .ldDtX _ | .ldStX _
  | .addIX _ | .ldFX _ | .ldBX _ | .stRegs _ | .ldRegs _ => true

end Sys2Proof
end

