-- ==== Sys2Proof/Decode.lean ====
section
/-! DEFINITION. Decoding (30_encoding.md R90 to R97) and, after it, the encoder. The opcode map is a table of
masks and matches, as R95 and R96 give it. -/

namespace Sys2Proof

/-- Field `X`, bits 11 to 8 (R91). -/
def fieldX (w : Word) : Reg := (w.extractLsb' 8 4).toFin
/-- Field `Y`, bits 7 to 4 (R91). -/
def fieldY (w : Word) : Reg := (w.extractLsb' 4 4).toFin
/-- Field `N`, bits 3 to 0 (R91). -/
def fieldN (w : Word) : Nibble := w.extractLsb' 0 4
/-- Field `NN`, bits 7 to 0 (R91). -/
def fieldNN (w : Word) : Byte := w.extractLsb' 0 8
/-- Field `NNN`, bits 11 to 0 (R91). -/
def fieldNNN (w : Word) : Imm12 := w.extractLsb' 0 12

/-- One row of the opcode map: mask, match, and the instruction its fields give. -/
structure OpcodeRow where
  mask : Word
  value : Word
  build : Word → Instr

/-- `(w & mask) == match` (R95). -/
def OpcodeRow.selects (r : OpcodeRow) (w : Word) : Bool := w &&& r.mask == r.value

/-- A row of format `OP`, the whole word fixed (R92). -/
def rowOP (value : Word) (i : Instr) : OpcodeRow := ⟨0xFFFF#16, value, fun _ => i⟩
/-- A row of format `NNN` (R92). -/
def rowNNN (value : Word) (mk : Imm12 → Instr) : OpcodeRow := ⟨0xF000#16, value, fun w => mk (fieldNNN w)⟩
/-- A row of format `XNN` (R92). -/
def rowXNN (value : Word) (mk : Reg → Byte → Instr) : OpcodeRow :=
  ⟨0xF000#16, value, fun w => mk (fieldX w) (fieldNN w)⟩
/-- A row of format `XY` (R92). -/
def rowXY (value : Word) (mk : Reg → Reg → Instr) : OpcodeRow :=
  ⟨0xF00F#16, value, fun w => mk (fieldX w) (fieldY w)⟩
/-- A row of format `XYN` (R92). -/
def rowXYN (value : Word) (mk : Reg → Reg → Nibble → Instr) : OpcodeRow :=
  ⟨0xF000#16, value, fun w => mk (fieldX w) (fieldY w) (fieldN w)⟩
/-- A row of format `X` (R92). -/
def rowX (value : Word) (mk : Reg → Instr) : OpcodeRow := ⟨0xF0FF#16, value, fun w => mk (fieldX w)⟩

/-- R96, classes 0 to 7. -/
def opcodeMapLow : List OpcodeRow :=
  [ rowOP 0x00E0#16 .cls, rowOP 0x00EE#16 .ret,
    rowNNN 0x1000#16 .jp, rowNNN 0x2000#16 .call,
    rowXNN 0x3000#16 .seXNN, rowXNN 0x4000#16 .sneXNN, rowXY 0x5000#16 .seXY,
    rowXNN 0x6000#16 .ldXNN, rowXNN 0x7000#16 .addXNN ]

/-- R96, classes 8 and 9. -/
def opcodeMapMid : List OpcodeRow :=
  [ rowXY 0x8000#16 .ldXY, rowXY 0x8001#16 .orXY, rowXY 0x8002#16 .andXY, rowXY 0x8003#16 .xorXY,
    rowXY 0x8004#16 .addXY, rowXY 0x8005#16 .sub, rowXY 0x8006#16 .shr, rowXY 0x8007#16 .subn,
    rowXY 0x800E#16 .shl, rowXY 0x9000#16 .sneXY ]

/-- R96, classes A to F. -/
def opcodeMapHigh : List OpcodeRow :=
  [ rowNNN 0xA000#16 .ldI, rowNNN 0xB000#16 .jpV0, rowXNN 0xC000#16 .rnd, rowXYN 0xD000#16 .drw,
    rowX 0xE09E#16 .skp, rowX 0xE0A1#16 .sknp,
    rowX 0xF007#16 .ldXDt, rowX 0xF00A#16 .ldXK, rowX 0xF015#16 .ldDtX, rowX 0xF018#16 .ldStX,
    rowX 0xF01E#16 .addIX, rowX 0xF029#16 .ldFX, rowX 0xF033#16 .ldBX, rowX 0xF055#16 .stRegs,
    rowX 0xF065#16 .ldRegs ]

/-- The complete opcode map, 34 rows in the order of R96. -/
def opcodeMap : List OpcodeRow := opcodeMapLow ++ opcodeMapMid ++ opcodeMapHigh

/-- Decode is total: a word is the instruction of the row that selects it, or `UNIMPL` (R95, R97, R100). -/
def decodeWord (w : Word) : Instr :=
  match opcodeMap.find? (·.selects w) with
  | some r => r.build w
  | none => .unimpl w

/-- Why a byte string is no instruction: an instruction is exactly two bytes (R90), so the one way is to have fewer. -/
inductive DecodeError where
  /-- fewer than two bytes -/
  | truncated
  deriving DecidableEq, Repr

/-- The instruction word of two bytes as they lie in memory, the high byte at the lower address (R68, R90). -/
def wordOfBytes (hi lo : Byte) : Word := hi ++ lo

/-- Decode the first instruction of a byte string and answer it with the bytes left over; too few bytes are
rejected by name, every two bytes are some instruction (R90, R97). -/
def decodeBytes : List Byte → Except DecodeError (Instr × List Byte)
  | hi :: lo :: rest => .ok (decodeWord (wordOfBytes hi lo), rest)
  | [_] | [] => .error .truncated

/-- The two bytes of a word in memory order: bits 15 to 8, then bits 7 to 0 (R68). -/
def bytesOfWord (w : Word) : List Byte := [w.extractLsb' 8 8, w.extractLsb' 0 8]

/-- The word whose bits the opcode table numbers as `w`: bits from `nbits` up are zero. -/
def tableWord (nbits w : Nat) : Word := BitVec.ofNat 16 (w % 2 ^ nbits)

/-- The instruction the decoder reads from an opcode-table word laid out as the hardware stores it (R68). -/
def decodeTableWord (nbits w : Nat) : Option Instr :=
  match decodeBytes (bytesOfWord (tableWord nbits w)) with
  | .ok (i, _) => some i
  | .error _ => none

/-- A word of format `NNN`: class, then the immediate (R92). -/
def encNNN (c : Nibble) (nnn : Imm12) : Word := c ++ nnn
/-- A word of format `XNN`, and of format `X` with `nn` the function code (R92). -/
def encXNN (c : Nibble) (x : Reg) (nn : Byte) : Word := c ++ BitVec.ofFin (w := 4) x ++ nn
/-- A word of format `XYN`, and of format `XY` with `n` the function code (R92). -/
def encXYN (c : Nibble) (x y : Reg) (n : Nibble) : Word :=
  c ++ BitVec.ofFin (w := 4) x ++ BitVec.ofFin (w := 4) y ++ n

/-- The word of an instruction (R92, R96). -/
def encode : Instr → Word
  | .cls => 0x00E0#16
  | .ret => 0x00EE#16
  | .jp nnn => encNNN 0x1#4 nnn
  | .call nnn => encNNN 0x2#4 nnn
  | .seXNN x nn => encXNN 0x3#4 x nn
  | .sneXNN x nn => encXNN 0x4#4 x nn
  | .seXY x y => encXYN 0x5#4 x y 0x0#4
  | .ldXNN x nn => encXNN 0x6#4 x nn
  | .addXNN x nn => encXNN 0x7#4 x nn
  | .ldXY x y => encXYN 0x8#4 x y 0x0#4
  | .orXY x y => encXYN 0x8#4 x y 0x1#4
  | .andXY x y => encXYN 0x8#4 x y 0x2#4
  | .xorXY x y => encXYN 0x8#4 x y 0x3#4
  | .addXY x y => encXYN 0x8#4 x y 0x4#4
  | .sub x y => encXYN 0x8#4 x y 0x5#4
  | .shr x y => encXYN 0x8#4 x y 0x6#4
  | .subn x y => encXYN 0x8#4 x y 0x7#4
  | .shl x y => encXYN 0x8#4 x y 0xE#4
  | .sneXY x y => encXYN 0x9#4 x y 0x0#4
  | .ldI nnn => encNNN 0xA#4 nnn
  | .jpV0 nnn => encNNN 0xB#4 nnn
  | .rnd x nn => encXNN 0xC#4 x nn
  | .drw x y n => encXYN 0xD#4 x y n
  | .skp x => encXNN 0xE#4 x 0x9E#8
  | .sknp x => encXNN 0xE#4 x 0xA1#8
  | .ldXDt x => encXNN 0xF#4 x 0x07#8
  | .ldXK x => encXNN 0xF#4 x 0x0A#8
  | .ldDtX x => encXNN 0xF#4 x 0x15#8
  | .ldStX x => encXNN 0xF#4 x 0x18#8
  | .addIX x => encXNN 0xF#4 x 0x1E#8
  | .ldFX x => encXNN 0xF#4 x 0x29#8
  | .ldBX x => encXNN 0xF#4 x 0x33#8
  | .stRegs x => encXNN 0xF#4 x 0x55#8
  | .ldRegs x => encXNN 0xF#4 x 0x65#8
  | .unimpl w => w

end Sys2Proof
end

