-- ==== Sys2Proof/Machine/ResetMemory.lean ====
section
/-! DEFINITION. The map of memory (20_memory.md R60, R61) and what a byte holds that nothing has written since
reset (10_state.md R26, R27): this is also what an address reads as that the memory list does not list. -/

namespace Sys2Proof.Machine

/-- `MEM_SIZE`: addresses 0x000 to 0xFFF are valid and no other (R6, R60). -/
def memSize : Nat := 0x1000

/-- `FONT_BASE`: the first byte of glyph 0 (R6, R27). -/
def fontBase : Nat := 0x050

/-- `PROG_BASE`: where a program is loaded, and the entry point (R6, R61). -/
def progBase : Nat := 0x200

/-- `PROG_MAX`: the most bytes a program may have (R6, R28). -/
def progMax : Nat := 3584

/-- Glyphs 0 to 7 of the conventional font (R27). -/
def fontLow : List Byte :=
  [ 0xF0, 0x90, 0x90, 0x90, 0xF0,  0x20, 0x60, 0x20, 0x20, 0x70,
    0xF0, 0x10, 0xF0, 0x80, 0xF0,  0xF0, 0x10, 0xF0, 0x10, 0xF0,
    0x90, 0x90, 0xF0, 0x10, 0x10,  0xF0, 0x80, 0xF0, 0x10, 0xF0,
    0xF0, 0x80, 0xF0, 0x90, 0xF0,  0xF0, 0x10, 0x20, 0x40, 0x40 ]

/-- Glyphs 8 to F of the conventional font (R27). -/
def fontHigh : List Byte :=
  [ 0xF0, 0x90, 0xF0, 0x90, 0xF0,  0xF0, 0x90, 0xF0, 0x10, 0xF0,
    0xF0, 0x90, 0xF0, 0x90, 0x90,  0xE0, 0x90, 0xE0, 0x90, 0xE0,
    0xF0, 0x80, 0x80, 0x80, 0xF0,  0xE0, 0x90, 0x90, 0x90, 0xE0,
    0xF0, 0x80, 0xF0, 0x80, 0xF0,  0xF0, 0x80, 0xF0, 0x80, 0x80 ]

/-- `FONT[0..79]`: the parameter of R27 at its default, the conventional table. PRESUMED (log entry 2), unsafe: the
source document gives no glyph byte. No meaning depends on the values; a machine holds its own in `State.font`. -/
def fontBytes : List Byte := fontLow ++ fontHigh

/-- The default of the parameter `FONT[0..79]` (R6, R27, D8), at the parameter's type. -/
def defaultFont : Vector Byte 80 := ⟨fontBytes.toArray, rfl⟩

/-- The byte at address `a` right after the reset of a machine with the default font: the font at
0x050 to 0x09F, 0x00 everywhere else (R26, R27, R45). A machine with another font lists the bytes in which it differs.
The zeros are a decision of the spec (D7), log entry 3. -/
def resetByte (a : Nat) : Byte :=
  if fontBase ≤ a then fontBytes.getD (a - fontBase) 0 else 0

end Sys2Proof.Machine
end

