-- ==== Sys2Proof/Machine/State.lean ====
section
/-! DEFINITION. The state of the machine (10_state.md R20), its faults, and the state right after reset (R45). -/

namespace Sys2Proof.Machine

/-- The two faults (60_exceptions.md R250). A fault is TAKEN, as R254 describes it: the step answers a next state
whose latch holds it, so no step ends in `Outcome.fault`. The names are the spec's own causes. -/
inductive Fault where
  /-- Raised by `00EE` on an empty call stack (R143, R251). Latched by `takeFault`. Safe: the spec's own fault. -/
  | stackUnderflow
  /-- Raised by a fetch and by `DXYN`, `FX33`, `FX55`, `FX65` when they touch an address above 0xFFF; `addr` is the
  first such address (R252). Latched by `takeFault`. Safe: the spec's own fault. -/
  | memoryAddressFault (addr : Addr)
  deriving DecidableEq, Repr

/-- Why a step has no meaning. -/
inductive Refusal where
  /-- Raised by an arm of `exec` whose instruction has no meaning yet; no arm is one. Safe: the machine stops. -/
  | notModelled (mnemonic : String)
  deriving DecidableEq, Repr

/-- The `UnimplementedOpcode(pc0, w)` report (R258): the address and the word of an unrecognised instruction. -/
structure Report where
  pc0 : Addr
  word : Word
  deriving DecidableEq, Repr

/-- Memory: (address, byte) pairs, addresses strictly rising, no pair equal to what the address holds at reset.
An unlisted address reads as its reset content (`resetByte`). -/
abbrev Memory := List Host.Cell

/-- The framebuffer: 32 rows, top to bottom, of 64 pixels, left to right (R32). -/
abbrev Grid := Vector (Vector Bool 64) 32

/-- The complete architectural state (R20), the parameter `FONT` of this machine (R6), and two fields of the model's
own: `rndCount` and `reports`. -/
structure State where
  /-- `V[0]` to `V[15]`; `V[15]` is the flag register `VF` (R21, R22). -/
  v : Vector Byte 16
  /-- The index register `I` (R23). -/
  i : Addr
  /-- The program counter `PC` (R24). -/
  pc : Addr
  /-- Memory (R26). -/
  mem : Memory
  /-- The call stack, its last element the top (R30). -/
  stack : List Addr
  /-- The framebuffer (R32). -/
  fb : Grid
  /-- The delay timer `DT` (R33). -/
  dt : Byte
  /-- The sound timer `ST` (R33). -/
  st : Byte
  /-- `Keys[0..15]`: true when the key is down (R36). -/
  keys : Vector Bool 16
  /-- The fault latch (R37). -/
  fault : Option Fault
  /-- The parameter `FONT[0..79]` (R6, R27, D8): the glyph bytes that every reset of this machine writes to 0x050 to
  0x09F. No step and no host move changes it. -/
  font : Vector Byte 80
  /-- The model's own: how many random bytes have been drawn; it indexes `Config.randomByte` (log entry 1). -/
  rndCount : Nat
  /-- The model's own: the reports emitted so far, oldest first (R258, log entry 4). -/
  reports : List Report
  deriving DecidableEq, Repr

/-- The state after `reset` (R45, R291). The spec states every value; those it decides itself (D3 to D7) are named
in log entry 3. The font parameter has its default here (log entry 2); `State.resetWithFont` is the reset of a machine
with any other. `rndCount` and `reports` are the model's own (log entries 1 and 4). -/
def State.reset : State where
  v := Vector.replicate 16 0x00#8
  i := 0x0000#16
  pc := 0x0200#16
  mem := []
  stack := []
  fb := Vector.replicate 32 (Vector.replicate 64 false)
  dt := 0x00#8
  st := 0x00#8
  keys := Vector.replicate 16 false
  fault := none
  font := defaultFont
  rndCount := 0
  reports := []

end Sys2Proof.Machine
end

