-- ==== Sys2Proof/Machine/Ops.lean ====
section
/-! DEFINITION. The named operations over memory, registers and the rest of the state, taking a fault, and the parts
of the step cycle around an instruction's own meaning. -/

namespace Sys2Proof.Machine

/-- What a step, and a meaning, answers. -/
abbrev Result := Host.Outcome State Fault Refusal

/-! ### Memory -/

/-- The byte memory holds at `a`: the listed one, or the reset content of an unlisted address (R26). -/
def memGet : Memory → Nat → Byte
  | [], a => resetByte a
  | (a', b) :: m, a => if a' = a then b else memGet m a

/-- Put a cell in its place among rising addresses. -/
def memInsert (a : Nat) (b : Byte) : Memory → Memory
  | [] => [(a, b)]
  | c :: m => if c.1 < a then c :: memInsert a b m else (a, b) :: c :: m

/-- Memory with byte `b` at `a`; the reset content is not listed, so that equal memories are equal lists. -/
def memSet (m : Memory) (a : Nat) (b : Byte) : Memory :=
  let rest := m.filter fun c => c.1 != a
  if b = resetByte a then rest else memInsert a b rest

/-- The canonical form: addresses valid and strictly rising, and no cell that holds its reset content. -/
abbrev Memory.wf (m : Memory) : Prop :=
  m.Pairwise (fun c d => c.1 < d.1) ∧ ∀ c ∈ m, c.1 < memSize ∧ c.2 ≠ resetByte c.1

/-- `MemRead(addr, 1)` (R62): an address above 0xFFF raises `MemoryAddressFault(addr)`. -/
def readByte (m : Memory) (a : Addr) : Except Fault Byte :=
  if a.toNat < memSize then .ok (memGet m a.toNat) else .error (.memoryAddressFault a)

/-- `MemWrite(addr, 1, v)` (R63): an address above 0xFFF raises `MemoryAddressFault(addr)`. No address is protected
(R71). -/
def writeByte (m : Memory) (a : Addr) (b : Byte) : Except Fault Memory :=
  if a.toNat < memSize then .ok (memSet m a.toNat b) else .error (.memoryAddressFault a)

/-- `n` byte reads at `a`, `a + 1`, … in ascending order; the first invalid access is the one that faults (R66). -/
def readBytes (m : Memory) (a : Addr) : Nat → Except Fault (List Byte)
  | 0 => .ok []
  | n + 1 =>
    match readByte m a with
    | .error f => .error f
    | .ok b =>
      match readBytes m (a + 1) n with
      | .error f => .error f
      | .ok bs => .ok (b :: bs)

/-- Byte writes at `a`, `a + 1`, … in ascending order; if one is invalid there is no memory to go on with (R66). -/
def writeBytes (m : Memory) (a : Addr) : List Byte → Except Fault Memory
  | [] => .ok m
  | b :: bs =>
    match writeByte m a b with
    | .error f => .error f
    | .ok m' => writeBytes m' (a + 1) bs

/-- `MemRead(addr, 2)`, the big-endian word of instruction fetch (R64, R68). -/
def readWord (m : Memory) (a : Addr) : Except Fault Word :=
  match readByte m a with
  | .error f => .error f
  | .ok hi =>
    match readByte m (a + 1) with
    | .error f => .error f
    | .ok lo => .ok (wordOfBytes hi lo)

/-! ### Registers and the other state -/

/-- `V[r]` (R9, R21). No register is hard-wired. -/
def State.reg (s : State) (r : Reg) : Byte := s.v[r.val]

/-- `V[r] <- b` (R9, R21). -/
def State.setReg (s : State) (r : Reg) (b : Byte) : State := { s with v := s.v.set r.val b }

/-- The number of the flag register `VF` (R22). -/
def regF : Reg := 0xF

/-- `I <- a` (R23). -/
def State.setI (s : State) (a : Addr) : State := { s with i := a }

/-- `PC <- a` (R24). -/
def State.setPc (s : State) (a : Addr) : State := { s with pc := a }

/-- Replace memory. -/
def State.setMem (s : State) (m : Memory) : State := { s with mem := m }

/-- Replace the framebuffer. -/
def State.setFb (s : State) (g : Grid) : State := { s with fb := g }

/-- `DT <- b` (R33). -/
def State.setDt (s : State) (b : Byte) : State := { s with dt := b }

/-- `ST <- b` (R33). -/
def State.setSt (s : State) (b : Byte) : State := { s with st := b }

/-- Replace the key levels (R36). -/
def State.setKeys (s : State) (k : Vector Bool 16) : State := { s with keys := k }

/-- Write the fault latch (R37). -/
def State.setFault (s : State) (f : Option Fault) : State := { s with fault := f }

/-- Replace the call stack. -/
def State.setStack (s : State) (l : List Addr) : State := { s with stack := l }

/-- `Push(a)`: append at the tail; the stack has no capacity (R30, R31). -/
def State.push (s : State) (a : Addr) : State := s.setStack (s.stack ++ [a])

/-- Count one more random byte drawn. -/
def State.drawn (s : State) : State := { s with rndCount := s.rndCount + 1 }

/-- `Rnd()`: the next byte of the random-byte input (R274), a free value. -/
def State.nextRandom (s : State) : Byte := Config.randomByte s.rndCount

/-- `Report(UnimplementedOpcode, pc0, w)`: one more report at the end of the trace (R258). -/
def State.report (s : State) (pc0 : Addr) (w : Word) : State := { s with reports := s.reports ++ [⟨pc0, w⟩] }

/-- The advance of `PC` by 2 that every instruction makes before its own effects (R122). -/
def State.advance (s : State) : State := s.setPc (s.pc + 2)

/-! ### Faults -/

/-- TAKING A FAULT (R254): the state before the step with the single change `Fault <- f`. It is applied to the state
before the step, so the advance of `PC` and every partial effect are undone. -/
def takeFault (f : Fault) (s : State) : Result := .next (s.setFault (some f))

/-- Go on with the value of an access, or take the fault it raised, in the state before the step (R254). -/
def orFault {α : Type} (r : Except Fault α) (s : State) (k : α → State) : Result :=
  match r with
  | .error f => takeFault f s
  | .ok a => .next (k a)

/-! ### The step cycle around an instruction -/

/-- Halted: a fault is latched, and every step does nothing (R120, R257). -/
def State.halted (s : State) : Bool := s.fault.isSome

/-- Fetch (R121): the big-endian word at `PC`. -/
def fetch (s : State) : Except Fault Word := readWord s.mem s.pc

/-- `Tick(t)` (R34): one less, not below zero. -/
def tick (t : Byte) : Byte := if t = 0 then 0 else t - 1

/-- Both timers tick (R125). -/
def State.tickTimers (s : State) : State := (s.setDt (tick s.dt)).setSt (tick s.st)

/-- The end of a step (R125, R126): both timers tick once, unless the instruction took a fault (R254). -/
def endStep : Result → Result
  | .next t => .next (if t.halted then t else t.tickTimers)
  | .fault f => .fault f
  | .refused r => .refused r

/-- The state with a byte string stored from address `a` upward, as far as the addresses are valid. -/
def State.storeAt (s : State) (a : Nat) : List Byte → State
  | [] => s
  | b :: bs => (if a < memSize then s.setMem (memSet s.mem a b) else s).storeAt (a + 1) bs

/-- The state after the reset of a machine whose parameter `FONT` is `font`: `Mem[0x050 + k] = FONT[k]` (R27, R45,
D8), everything else as in `State.reset`. -/
def State.resetWithFont (font : Vector Byte 80) : State :=
  { State.reset with font := font }.storeAt fontBase font.toList

/-- THE ONLY WAY OUT OF A FAULT is the host's `reset` (R257, R290): there is no return from a fault inside the
machine. The whole architectural state becomes that of R45, with this machine's own font; the count of random bytes
drawn and the reports already emitted are no state of the machine and go on (log entries 1 and 4). -/
def hostReset (s : State) : State :=
  { State.resetWithFont s.font with rndCount := s.rndCount, reports := s.reports }

/-- The state with the word `w` where the next fetch reads it. A latched fault, which would keep the step from
fetching, is cleared; a state without one keeps everything but the two bytes. -/
def State.placeWord (s : State) (w : Word) : State := (s.setFault none).storeAt s.pc.toNat (bytesOfWord w)

end Sys2Proof.Machine
end

