-- ==== Sys2Proof/Machine/Operands.lean ====
section
/-! DEFINITION. Every operand form of the machine: immediates, the `I + k` addressing mode, register ranges, decimal
digits, glyph addresses, pixels and key levels. -/

namespace Sys2Proof.Machine

/-- `zext_16(NNN)`: the 12-bit immediate as an address (R93). -/
def addrOfImm (nnn : Imm12) : Addr := nnn.setWidth 16

/-- `zext_16(V[r])`: a byte as a 16-bit value (R144, R191). -/
def addrOfByte (b : Byte) : Addr := b.setWidth 16

/-- The one addressing mode: `EA = (I + k) mod 65536` (R65, R197). -/
def effAddr (s : State) (k : Nat) : Addr := s.i + BitVec.ofNat 16 k

/-- `V[0]` to `V[x]` inclusive, the bytes `FX55` stores (R195). -/
def regsUpTo (s : State) (x : Reg) : List Byte := s.v.toList.take (x.val + 1)

/-- Write bytes to registers `k`, `k + 1`, … in ascending order (R196). -/
def writeRegs (v : Vector Byte 16) (k : Nat) : List Byte → Vector Byte 16
  | [] => v
  | b :: bs => writeRegs (v.setIfInBounds k b) (k + 1) bs

/-- The registers with the bytes loaded from `V[0]` upward (R196). -/
def State.loadRegs (s : State) (bs : List Byte) : State := { s with v := writeRegs s.v 0 bs }

/-- The three decimal digits of a byte: hundreds, tens, ones, one byte each (R193). -/
def decimalDigits (b : Byte) : List Byte :=
  [BitVec.ofNat 8 (b.toNat / 100), BitVec.ofNat 8 (b.toNat / 10 % 10), BitVec.ofNat 8 (b.toNat % 10)]

/-- The address of a glyph, `0x050 + 5 * digit`, on the whole byte, unmasked (R192). -/
def glyphAddr (b : Byte) : Addr := BitVec.ofNat 16 (fontBase + 5 * b.toNat)

/-- `Px(x, y)`: the pixel at column `x`, row `y`; off the grid there is none (R32, R210). -/
def px (g : Grid) (x y : Nat) : Bool := if h : x < 64 ∧ y < 32 then g[y][x] else false

/-- `Px(x, y) <- b`; off the grid a no-op (R210). -/
def setPx (g : Grid) (x y : Nat) (b : Bool) : Grid :=
  if h : x < 64 ∧ y < 32 then g.set y (g[y].set x b) else g

/-- A grid with every pixel off (R210, R211). -/
def clearGrid : Grid := Vector.replicate 32 (Vector.replicate 64 false)

/-- Pixel column `j` of a sprite row, left to right: bit `7 - j` (R212). -/
def spriteBit (b : Byte) (j : Nat) : Bool := decide (j < 8) && b.getLsbD (7 - j)

/-- One sprite pixel of the draw, aimed at `(ox + j, oy + i)`: clipped off the grid, else XORed into it, a collision
recorded (R213). The accumulator is the grid and whether a collision has happened. -/
def drawPixel (ox oy i : Nat) (b : Byte) (acc : Grid × Bool) (j : Nat) : Grid × Bool :=
  if spriteBit b j && decide (ox + j < 64) && decide (oy + i < 32) then
    if px acc.1 (ox + j) (oy + i) then (setPx acc.1 (ox + j) (oy + i) false, true)
    else (setPx acc.1 (ox + j) (oy + i) true, acc.2)
  else acc

/-- One sprite row, columns left to right (R213). -/
def drawRow (ox oy i : Nat) (b : Byte) (acc : Grid × Bool) : Grid × Bool :=
  (List.range 8).foldl (drawPixel ox oy i b) acc

/-- The sprite rows from row `i` on, top to bottom (R213). -/
def drawRows (ox oy i : Nat) : List Byte → Grid × Bool → Grid × Bool
  | [], acc => acc
  | b :: bs, acc => drawRows ox oy (i + 1) bs (drawRow ox oy i b acc)

/-- `Key(k)`: the level of the key the whole byte names; an index above 15 names no key that is down (R36, R232). -/
def keyLevel (s : State) (k : Byte) : Bool := if h : k.toNat < 16 then s.keys[k.toNat] else false

/-- The lowest key that is down, if one is (R236). -/
def lowestKey (s : State) : Option Byte :=
  ((List.range 16).map (BitVec.ofNat 8)).find? (keyLevel s)

/-- `PC` two further when the condition holds: a skip (R145 to R149). -/
def State.skipIf (s : State) (c : Bool) : State := if c then s.setPc (s.pc + 2) else s

end Sys2Proof.Machine
end

