-- ==== Sys2Proof/Machine/Alu.lean ====
section
/-! DEFINITION. Register load, arithmetic, logic, shift and random (42_load_alu.md). -/

namespace Sys2Proof.Machine

/-- The order of R160 for `8XY5`, `8XY6`, `8XY7`, `8XYE`: the flag, computed from the registers before, is written
first; the result is computed from the registers AFTER that write and is written last. -/
def flagThenResult (x : Reg) (flag : State → Bool) (result : State → Byte) (s : State) : Result :=
  let s1 := s.advance.setReg regF (flagByte (flag s))
  .next (s1.setReg x (result s1))

/-- `6XNN` LD_XNN (R161). -/
def execLdXNN (x : Reg) (nn : Byte) (s : State) : Result := .next (s.advance.setReg x nn)

/-- `7XNN` ADD_XNN (R162): no flag. -/
def execAddXNN (x : Reg) (nn : Byte) (s : State) : Result := .next (s.advance.setReg x (s.reg x + nn))

/-- `8XY0` LD_XY (R163). -/
def execLdXY (x y : Reg) (s : State) : Result := .next (s.advance.setReg x (s.reg y))

/-- `8XY1` OR (R164): no flag. -/
def execOr (x y : Reg) (s : State) : Result := .next (s.advance.setReg x (s.reg x ||| s.reg y))

/-- `8XY2` AND (R165): no flag. -/
def execAnd (x y : Reg) (s : State) : Result := .next (s.advance.setReg x (s.reg x &&& s.reg y))

/-- `8XY3` XOR (R166): no flag. -/
def execXor (x y : Reg) (s : State) : Result := .next (s.advance.setReg x (s.reg x ^^^ s.reg y))

/-- `8XY4` ADD_XY (R167): both operands are read before any write; then the carry, then the sum. -/
def execAddXY (x y : Reg) (s : State) : Result :=
  .next ((s.advance.setReg regF (flagByte (carry (s.reg x) (s.reg y)))).setReg x (s.reg x + s.reg y))

/-- `8XY5` SUB (R168). -/
def execSub (x y : Reg) (s : State) : Result :=
  flagThenResult x (fun s => noBorrow (s.reg x) (s.reg y)) (fun s => s.reg x - s.reg y) s

/-- `8XY6` SHR (R169): the source is `V[y]`. -/
def execShr (x y : Reg) (s : State) : Result :=
  flagThenResult x (fun s => shiftedOutRight (s.reg y)) (fun s => s.reg y >>> 1) s

/-- `8XY7` SUBN (R170). -/
def execSubn (x y : Reg) (s : State) : Result :=
  flagThenResult x (fun s => noBorrow (s.reg y) (s.reg x)) (fun s => s.reg y - s.reg x) s

/-- `8XYE` SHL (R171): the source is `V[y]`. -/
def execShl (x y : Reg) (s : State) : Result :=
  flagThenResult x (fun s => shiftedOutLeft (s.reg y)) (fun s => s.reg y <<< 1) s

/-- `CXNN` RND (R172): the random byte is a free value, one fresh byte for each execution (R274, log entry 1). -/
def execRnd (x : Reg) (nn : Byte) (s : State) : Result :=
  .next (s.advance.drawn.setReg x (s.nextRandom &&& nn))

end Sys2Proof.Machine
end

