-- ==== Sys2Proof/Machine/Control.lean ====
section
/-! DEFINITION. Control transfer: jumps, call, return and skips (41_control_flow.md). A meaning is given the state
before the step, in which `PC = pc0`, and makes the advance of R122 itself. -/

namespace Sys2Proof.Machine

/-- `00EE` RET (R143): the top of the stack becomes `PC`; an empty stack raises `StackUnderflow` (R251). -/
def execRet (s : State) : Result :=
  match s.stack.getLast? with
  | none => takeFault .stackUnderflow s
  | some a => .next ((s.setStack s.stack.dropLast).setPc a)

/-- `1NNN` JP (R141). -/
def execJp (nnn : Imm12) (s : State) : Result := .next (s.advance.setPc (addrOfImm nnn))

/-- `2NNN` CALL (R142): the advanced `PC` is pushed. -/
def execCall (nnn : Imm12) (s : State) : Result :=
  .next ((s.advance.push s.advance.pc).setPc (addrOfImm nnn))

/-- `BNNN` JP_V0 (R144): the register is always `V[0]`. -/
def execJpV0 (nnn : Imm12) (s : State) : Result :=
  .next (s.advance.setPc (addrOfImm nnn + addrOfByte (s.reg 0)))

/-- `3XNN` SE_XNN (R145). -/
def execSeXNN (x : Reg) (nn : Byte) (s : State) : Result := .next (s.advance.skipIf (s.reg x == nn))

/-- `4XNN` SNE_XNN (R146). -/
def execSneXNN (x : Reg) (nn : Byte) (s : State) : Result := .next (s.advance.skipIf (s.reg x != nn))

/-- `5XY0` SE_XY (R147). -/
def execSeXY (x y : Reg) (s : State) : Result := .next (s.advance.skipIf (s.reg x == s.reg y))

/-- `9XY0` SNE_XY (R148). -/
def execSneXY (x y : Reg) (s : State) : Result := .next (s.advance.skipIf (s.reg x != s.reg y))

end Sys2Proof.Machine
end

