-- ==== Sys2Proof/Machine/Display.lean ====
section
/-! DEFINITION. The framebuffer engine's instructions: clear and draw (44_display.md). -/

namespace Sys2Proof.Machine

/-- `00E0` CLS (R211): every pixel off, `VF` untouched. -/
def execCls (s : State) : Result := .next (s.advance.setFb clearGrid)

/-- `DXYN` DRW (R213, R215): all `N` rows are read, clipped or not; the origin is taken from the registers before `VF`
is written; `VF` is the collision, written in every execution. -/
def execDrw (x y : Reg) (n : Nibble) (s : State) : Result :=
  orFault (readBytes s.mem (effAddr s 0) n.toNat) s fun rows =>
    let drawn := drawRows ((s.reg x).toNat % 64) ((s.reg y).toNat % 32) 0 rows (s.fb, false)
    (s.advance.setFb drawn.1).setReg regF (flagByte drawn.2)

end Sys2Proof.Machine
end

