-- ==== Sys2Proof/Machine/Index.lean ====
section
/-! DEFINITION. The index register and the memory instructions (43_index_memory.md). `I` is changed by no access
(R197). -/

namespace Sys2Proof.Machine

/-- Store bytes at `I`, `I + 1`, …: all of them, or the fault of the first invalid address (R65, R66). -/
def storeAtI (bs : List Byte) (s : State) : Result :=
  orFault (writeBytes s.mem (effAddr s 0) bs) s fun m => s.advance.setMem m

/-- `ANNN` LD_I (R190). -/
def execLdI (nnn : Imm12) (s : State) : Result := .next (s.advance.setI (addrOfImm nnn))

/-- `FX1E` ADD_I_X (R191): modulo 65536, no flag. -/
def execAddIX (x : Reg) (s : State) : Result := .next (s.advance.setI (s.i + addrOfByte (s.reg x)))

/-- `FX29` LD_F_X (R192). -/
def execLdFX (x : Reg) (s : State) : Result := .next (s.advance.setI (glyphAddr (s.reg x)))

/-- `FX33` LD_B_X (R194). -/
def execLdBX (x : Reg) (s : State) : Result := storeAtI (decimalDigits (s.reg x)) s

/-- `FX55` ST_REGS (R195). -/
def execStRegs (x : Reg) (s : State) : Result := storeAtI (regsUpTo s x) s

/-- `FX65` LD_REGS (R196). -/
def execLdRegs (x : Reg) (s : State) : Result :=
  orFault (readBytes s.mem (effAddr s 0) (x.val + 1)) s fun bs => s.advance.loadRegs bs

end Sys2Proof.Machine
end

