-- ==== Sys2Proof/Machine/KeypadTimers.lean ====
section
/-! DEFINITION. Keypad and timer instructions (45_keypad_timers.md). -/

namespace Sys2Proof.Machine

/-- `EX9E` SKP (R230). -/
def execSkp (x : Reg) (s : State) : Result := .next (s.advance.skipIf (keyLevel s (s.reg x)))

/-- `EXA1` SKNP (R231). -/
def execSknp (x : Reg) (s : State) : Result := .next (s.advance.skipIf (!keyLevel s (s.reg x)))

/-- `FX07` LD_X_DT (R233): `DT` before this step's tick. -/
def execLdXDt (x : Reg) (s : State) : Result := .next (s.advance.setReg x s.dt)

/-- `FX15` LD_DT_X (R234). -/
def execLdDtX (x : Reg) (s : State) : Result := .next (s.advance.setDt (s.reg x))

/-- `FX18` LD_ST_X (R235). -/
def execLdStX (x : Reg) (s : State) : Result := .next (s.advance.setSt (s.reg x))

/-- `FX0A` LD_X_K (R236): the lowest key that is down, or park: the advance is taken back. -/
def execLdXK (x : Reg) (s : State) : Result :=
  match lowestKey s with
  | some k => .next (s.advance.setReg x k)
  | none => .next (s.advance.setPc (s.advance.pc - 2))

end Sys2Proof.Machine
end

