-- ==== Sys2Proof/Machine/Unimpl.lean ====
section
/-! DEFINITION. The unrecognised instruction (40_step_cycle.md R128). -/

namespace Sys2Proof.Machine

/-- UNIMPL (R128): a report that carries `pc0` and the word, and no change of state but the advance. -/
def execUnimpl (w : Word) (s : State) : Result := .next (s.advance.report s.pc w)

end Sys2Proof.Machine
end

