-- ==== Sys2Proof/Machine/Dispatch.lean ====
section
/-! DEFINITION. Execute (40_step_cycle.md R124): one arm per instruction, each one call of its meaning. A meaning is
given the state before the step (`PC = pc0`) and makes the advance of R122 itself, so that a fault, taken in the
state before the step, undoes it. -/

namespace Sys2Proof.Machine

/-- The meaning of an instruction that stands at `PC` in state `s`, without the tick that ends the step. -/
def exec (i : Instr) (s : State) : Host.Outcome State Fault Refusal :=
  match i with
  | .cls => Sys2Proof.Machine.execCls s
  | .ret => Sys2Proof.Machine.execRet s
  | .jp nnn => Sys2Proof.Machine.execJp nnn s
  | .call nnn => Sys2Proof.Machine.execCall nnn s
  | .seXNN x nn => Sys2Proof.Machine.execSeXNN x nn s
  | .sneXNN x nn => Sys2Proof.Machine.execSneXNN x nn s
  | .seXY x y => Sys2Proof.Machine.execSeXY x y s
  | .ldXNN x nn => Sys2Proof.Machine.execLdXNN x nn s
  | .addXNN x nn => Sys2Proof.Machine.execAddXNN x nn s
  | .ldXY x y => Sys2Proof.Machine.execLdXY x y s
  | .orXY x y => Sys2Proof.Machine.execOr x y s
  | .andXY x y => Sys2Proof.Machine.execAnd x y s
  | .xorXY x y => Sys2Proof.Machine.execXor x y s
  | .addXY x y => Sys2Proof.Machine.execAddXY x y s
  | .sub x y => Sys2Proof.Machine.execSub x y s
  | .shr x y => Sys2Proof.Machine.execShr x y s
  | .subn x y => Sys2Proof.Machine.execSubn x y s
  | .shl x y => Sys2Proof.Machine.execShl x y s
  | .sneXY x y => Sys2Proof.Machine.execSneXY x y s
  | .ldI nnn => Sys2Proof.Machine.execLdI nnn s
  | .jpV0 nnn => Sys2Proof.Machine.execJpV0 nnn s
  | .rnd x nn => Sys2Proof.Machine.execRnd x nn s
  | .drw x y n => Sys2Proof.Machine.execDrw x y n s
  | .skp x => Sys2Proof.Machine.execSkp x s
  | .sknp x => Sys2Proof.Machine.execSknp x s
  | .ldXDt x => Sys2Proof.Machine.execLdXDt x s
  | .ldXK x => Sys2Proof.Machine.execLdXK x s
  | .ldDtX x => Sys2Proof.Machine.execLdDtX x s
  | .ldStX x => Sys2Proof.Machine.execLdStX x s
  | .addIX x => Sys2Proof.Machine.execAddIX x s
  | .ldFX x => Sys2Proof.Machine.execLdFX x s
  | .ldBX x => Sys2Proof.Machine.execLdBX x s
  | .stRegs x => Sys2Proof.Machine.execStRegs x s
  | .ldRegs x => Sys2Proof.Machine.execLdRegs x s
  | .unimpl w => Sys2Proof.Machine.execUnimpl w s

end Sys2Proof.Machine
end

