-- ==== Sys2Proof/Machine/Cycle.lean ====
section
/-! DEFINITION. The step cycle as one function (40_step_cycle.md R120 to R126). -/

namespace Sys2Proof.Machine

/-- The whole step (R126): nothing while a fault is latched (R120); else fetch, decode, execute, tick. A fetch that
faults takes its fault with `PC` unchanged (R121). -/
def stepCycle (s : State) : Result :=
  if s.halted then .next s
  else
    match fetch s with
    | .error f => takeFault f s
    | .ok w => endStep (exec (decodeWord w) s)

end Sys2Proof.Machine
end

