-- ==== Sys2Proof/Machine/Step.lean ====
section
/-! DEFINITION. The step, and the word the next step fetches. -/

namespace Sys2Proof.Machine

/-- One step: the step cycle of R126. -/
def step (s : State) : Host.Outcome State Fault Refusal := stepCycle s

/-- The state with one opcode-table word stored where `step` fetches its next instruction (log entry 5). -/
def State.withFetchWord (s : State) (nbits w : Nat) : State := s.placeWord (tableWord nbits w)

end Sys2Proof.Machine
end

