-- ==== Sys2Proof/Machine/HostMoves.lean ====
section
/-! DEFINITION. The host's moves and reads (00_scope.md R12, R13; 60_exceptions.md R262 to R268; 44_display.md R217).
They are not part of `step`; they stand between steps. -/

namespace Sys2Proof.Machine

/-- A rejected host move (R250): no state change, and the fault latch is not touched (R262). -/
inductive HostError where
  /-- `loadProgram` with more than 3584 bytes (R263) -/
  | programTooLarge
  /-- `keyDown` or `keyUp` with a key outside 0 to 15 (R265) -/
  | invalidKeyIndex
  deriving DecidableEq, Repr

/-- The host's moves that change state (R262, R290). -/
inductive HostMove where
  /-- construct the machine anew (R290) -/
  | reset
  /-- copy a program image to 0x200 upward (R263) -/
  | loadProgram (bytes : List Byte)
  /-- key `key` goes down (R264) -/
  | keyDown (key : Nat)
  /-- key `key` goes up (R264) -/
  | keyUp (key : Nat)
  deriving DecidableEq, Repr

/-- `loadProgram(bytes)` (R263, R296): too long an image is rejected before any byte is written. -/
def loadProgram (bytes : List Byte) (s : State) : Except HostError State :=
  if bytes.length ≤ progMax then .ok (s.storeAt progBase bytes) else .error .programTooLarge

/-- Set the level of key `key` (R264), or reject the index (R265). -/
def setKey (key : Nat) (down : Bool) (s : State) : Except HostError State :=
  if h : key < 16 then .ok (s.setKeys (s.keys.set key down h)) else .error .invalidKeyIndex

/-- A host move, in any state, the halted one included (R268). -/
def hostMove : HostMove → State → Except HostError State
  | .reset, s => .ok (hostReset s)
  | .loadProgram bytes, s => loadProgram bytes s
  | .keyDown key, s => setKey key true s
  | .keyUp key, s => setKey key false s

/-- `displaySnapshot()` in its flat form: element `64 * y + x` is `Px(x, y)` (R217). -/
def displaySnapshot (s : State) : List Bool := (s.fb.toList.map Vector.toList).flatten

/-- The sound timer's count, which the host may read (R35, R266). -/
def soundCount (s : State) : Byte := s.st

/-- The tone level `ST != 0` (R35, R275). -/
def toneLevel (s : State) : Bool := s.st != 0

end Sys2Proof.Machine
end

