-- ==== Sys2Proof/Machine/System.lean ====
section
/-! DEFINITION. The core and its host together: whole moves, interleaved (00_scope.md R12). -/

namespace Sys2Proof.Machine

/-- The machine whose parameter `FONT` is `font` (R6, D8); `Sys2Proof.core` is the one with the default. -/
def machineWithFont (font : Vector Byte 80) : Host.Core where
  State := State
  Fault := Fault
  Refusal := Refusal
  step := step
  reset := State.resetWithFont font

/-- A move of the core or of the host (R12). -/
inductive Move where
  | step
  | host (m : HostMove)
  deriving DecidableEq, Repr

/-- The state after a move; a rejected host move changes nothing (R262). -/
def applyMove : Move → State → State
  | .step, s =>
    match step s with
    | .next t => t
    | .fault _ | .refused _ => s
  | .host m, s =>
    match hostMove m s with
    | .ok t => t
    | .error _ => s

/-- The state after a sequence of moves, in order: the host may make any of its moves between any two steps. -/
def applyMoves : List Move → State → State
  | [], s => s
  | m :: ms, s => applyMoves ms (applyMove m s)

end Sys2Proof.Machine
end

