-- ==== Sys2Proof/Safety.lean ====
section
/-! DEFINITION. The terms in which claims are made: what two states have in common, the encoding of an instruction,
and the invariant of the machine. -/

namespace Sys2Proof.Machine

/-- The pieces of state a frame speaks of. -/
inductive Component where
  | reg (r : Reg)
  | i | pc | mem | stack | fb | dt | st | keys | fault | font | rndCount | reports
  deriving DecidableEq, Repr

/-- A component holds in `t` what it holds in `s`; memory byte by byte, through `readByte`. -/
def Same : Component → State → State → Prop
  | .reg r, s, t => t.reg r = s.reg r
  | .i, s, t => t.i = s.i
  | .pc, s, t => t.pc = s.pc
  | .mem, s, t => ∀ a, readByte t.mem a = readByte s.mem a
  | .stack, s, t => t.stack = s.stack
  | .fb, s, t => t.fb = s.fb
  | .dt, s, t => t.dt = s.dt
  | .st, s, t => t.st = s.st
  | .keys, s, t => t.keys = s.keys
  | .fault, s, t => t.fault = s.fault
  | .font, s, t => t.font = s.font
  | .rndCount, s, t => t.rndCount = s.rndCount
  | .reports, s, t => t.reports = s.reports

/-- The frame: every component but the listed ones is unchanged. -/
def SameBut (cs : List Component) (s t : State) : Prop := ∀ c, c ∉ cs → Same c s t

/-- The words that `mask` and `value` select decode to the instruction their fields give (R95). -/
def EncodedAs (mask value : Word) (mk : Word → Instr) : Prop := ∀ w, w &&& mask = value → decodeWord w = mk w

/-- The registers an instruction may write, as the list of R21 and the table of R22 give them. -/
def writtenRegs : Instr → List Reg
  | .ldXNN x _ | .addXNN x _ | .ldXY x _ | .orXY x _ | .andXY x _ | .xorXY x _ | .rnd x _ | .ldXDt x | .ldXK x => [x]
  | .addXY x _ | .sub x _ | .shr x _ | .subn x _ | .shl x _ => [x, regF]
  | .drw _ _ _ => [regF]
  | .ldRegs x => (List.finRange 16).filter (· ≤ x)
  | .cls | .ret | .jp _ | .call _ | .seXNN _ _ | .sneXNN _ _ | .seXY _ _ | .sneXY _ _ | .ldI _ | .jpV0 _ | .skp _
  | .sknp _ | .ldDtX _ | .ldStX _ | .addIX _ | .ldFX _ | .ldBX _ | .stRegs _ | .unimpl _ => []

/-- Whether an instruction, in a state, would touch an address above 0xFFF with its data accesses (R252). -/
def touchesInvalid : Instr → State → Prop
  | .drw _ _ n, s => 0 < n.toNat ∧ 0xFFF < s.i.toNat + n.toNat - 1
  | .ldBX _, s => 0xFFF < s.i.toNat + 2
  | .stRegs x, s | .ldRegs x, s => 0xFFF < s.i.toNat + x.val
  | _, _ => False

/-- Key `k` is one of the sixteen and it is down (R36, R232). -/
def keyIsDown (s : State) (k : Nat) : Prop := ∃ h : k < 16, s.keys[k] = true

/-- The sprite bit aimed at column `x`, row `y` when the rows are drawn with origin `(ox, oy)` (R212): bit `7 - j` of
row `i` for `(x, y) = (ox + j, oy + i)`, and no bit elsewhere. -/
def aimedBit (ox oy : Nat) (rows : List Byte) (x y : Nat) : Bool :=
  decide (ox ≤ x) && decide (oy ≤ y) && spriteBit (rows.getD (y - oy) 0) (x - ox)

/-- No step has faulted since reset. -/
def State.Running (s : State) : Prop := s.fault = none

/-- A latched fault and the state it was taken in fit together (R143, R252): an underflow with an empty stack, an
address fault at an invalid address that is `PC`, `I` or the first address past memory. -/
def State.FaultFits (s : State) : Prop :=
  match s.fault with
  | none => True
  | some .stackUnderflow => s.stack = []
  | some (.memoryAddressFault a) => 0xFFF < a.toNat ∧ (a = s.pc ∨ a = s.i ∨ a = 0x1000#16)

/-- The invariant of the machine: memory is in its canonical form, `PC` and the return addresses keep the bounds of
R25 and R142, and a latched fault fits its state. -/
structure State.Inv (s : State) : Prop where
  memory : Memory.wf s.mem
  pcBound : s.pc.toNat ≤ 0x10FE
  returnAddresses : ∀ a ∈ s.stack, 0x0002 ≤ a.toNat ∧ a.toNat ≤ 0x1000
  faultFits : s.FaultFits

end Sys2Proof.Machine
end

