-- ==== Sys2Proof/Certificates/Slice0/Obligations.lean ====
section
/-! DEFINITION. The statements for the provers. Each docstring names the rule of spec/ it formalises. `SameBut cs s t`
is the frame: every component of state but those listed is unchanged, memory byte by byte. It is what the pseudocode
of the instruction's rule leaves unwritten; where the source lists no write at all (`I` in an access, `VF` in `8XY1`,
`8XY2`, `8XY3`, `FX1E` and `00E0`) that is the spec's decision D28, log entry 16. -/

open Sys2Proof Sys2Proof.Machine

/-! ### Encoding and decoding (30_encoding.md) -/

/-- R90 to R96: the word of every well-formed instruction, laid out in memory order, decodes to that instruction. -/
def Obligations.DecodeOfEncodeIsIdentity : Prop :=
  ∀ i : Instr, i.wellFormed = true → decodeBytes (bytesOfWord (encode i)) = .ok (i, [])

/-- R95 to R97: every word is the word of the instruction it decodes to; no bit is dropped. -/
def Obligations.EncodeOfDecodeIsIdentity : Prop := ∀ w : Word, encode (decodeWord w) = w

/-- R100: the unrecognised space, given there by opcode class, is exactly what decodes to `UNIMPL`, and decoding
answers well-formed instructions only. That the patterns match in full is the spec's decision D15, log entry 12. -/
def Obligations.UnrecognizedSpaceIsUnimpl : Prop :=
  ∀ w : Word, (unrecognized w = true ↔ decodeWord w = .unimpl w) ∧ (decodeWord w).wellFormed = true

/-- R95: 34 rows, and no word matches two of them. -/
def Obligations.NoWordMatchesTwoRows : Prop :=
  opcodeMap.length = 34 ∧ ∀ w : Word, (opcodeMap.filter (·.selects w)).length ≤ 1

/-- R91: the fields are the stated bit ranges of the word. -/
def Obligations.FieldsAreTheBitRanges : Prop :=
  ∀ w : Word, (fieldX w).val = w.toNat / 256 % 16 ∧ (fieldY w).val = w.toNat / 16 % 16 ∧
    (fieldN w).toNat = w.toNat % 16 ∧ (fieldNN w).toNat = w.toNat % 256 ∧ (fieldNNN w).toNat = w.toNat % 4096 ∧
    (fieldNNN w).toNat = 256 * (fieldX w).val + (fieldNN w).toNat ∧
    (fieldNN w).toNat = 16 * (fieldY w).val + (fieldN w).toNat

/-- Words of the spec's own examples, one or more per family, decode to the instruction they stand for. -/
def Obligations.ExampleWordsDecode : Prop :=
  decodeWord 0x00E0#16 = .cls ∧ decodeWord 0x00EE#16 = .ret ∧ decodeWord 0x1ABC#16 = .jp 0xABC#12 ∧
  decodeWord 0x3A07#16 = .seXNN 0xA 0x07#8 ∧ decodeWord 0x8014#16 = .addXY 0 1 ∧
  decodeWord 0xC30F#16 = .rnd 3 0x0F#8 ∧ decodeWord 0xA2F0#16 = .ldI 0x2F0#12 ∧ decodeWord 0xF255#16 = .stRegs 2 ∧
  decodeWord 0xD015#16 = .drw 0 1 5#4 ∧ decodeWord 0xE29E#16 = .skp 2 ∧ decodeWord 0xF10A#16 = .ldXK 1 ∧
  decodeWord 0x5121#16 = .unimpl 0x5121#16 ∧ decodeWord 0x0000#16 = .unimpl 0x0000#16

/-! ### The step cycle (40_step_cycle.md) and the whole machine -/

/-- R120 to R126: when no fault is latched and the two bytes at `PC` decode to `i`, the step is `exec` of `i`, followed
by one tick of both timers unless the instruction took a fault. The advance of `PC` (R122) is part of `exec`. -/
def Obligations.StepRunsTheDecodedInstruction : Prop :=
  ∀ (s : State) (hi lo : Byte) (i : Instr), s.fault = none → readByte s.mem s.pc = .ok hi →
    readByte s.mem (s.pc + 1) = .ok lo → decodeBytes [hi, lo] = .ok (i, []) → i.wellFormed = true →
    step s = match exec i s with
      | .next t => .next (if t.fault = none then t.tickTimers else t)
      | .fault f => .fault f
      | .refused r => .refused r

/-- R64: a 2-byte read gives the big-endian word, at odd addresses too, and above 0xFFE raises the fault of the first
invalid address. -/
def Obligations.FetchReadsBigEndianWordOrFaults : Prop :=
  ∀ (m : Memory) (a : Addr),
    (a.toNat ≤ 0xFFE → ∃ (w : Word) (hi lo : Byte), readWord m a = .ok w ∧ readByte m a = .ok hi ∧
      readByte m (a + 1) = .ok lo ∧ w.toNat = 256 * hi.toNat + lo.toNat) ∧
    (0xFFE < a.toNat → ∃ b : Addr, readWord m a = .error (.memoryAddressFault b) ∧
      b.toNat = if 0xFFF < a.toNat then a.toNat else 0x1000)

/-- R120, R257: while a fault is latched a step changes nothing (the spec's decision D12, log entry 7). -/
def Obligations.HaltedStepChangesNothing : Prop := ∀ s : State, s.fault ≠ none → step s = .next s

/-- R254: a step that raises a fault changes nothing but the latch: no advance, no tick, no partial effect (the spec's
decision D11, log entry 7). -/
def Obligations.FaultingStepChangesOnlyTheLatch : Prop :=
  ∀ s t : State, s.fault = none → step s = .next t → t.fault ≠ none → ∃ f, t = { s with fault := some f }

/-- R121, R251 to R253: which steps raise which fault, and no other step raises one. The address in the fault is the
first invalid one (the spec's decision D10, log entry 19), clipped rows included (D14, log entry 11). -/
def Obligations.FaultsAriseExactlyAsListed : Prop :=
  ∀ s : State, s.fault = none →
    (∀ a : Addr, (∃ t, step s = .next t ∧ t.fault = some (.memoryAddressFault a)) ↔
      (0xFFE < s.pc.toNat ∧ a.toNat = max s.pc.toNat 0x1000) ∨
      (∃ w, fetch s = .ok w ∧ touchesInvalid (decodeWord w) s ∧ a.toNat = max s.i.toNat 0x1000)) ∧
    ((∃ t, step s = .next t ∧ t.fault = some .stackUnderflow) ↔ fetch s = .ok 0x00EE#16 ∧ s.stack = [])

/-- R127, R129, R311: every step runs to completion; no state and no word stops the model. -/
def Obligations.EveryStepAnswersANextState : Prop := ∀ s : State, ∃ t, step s = .next t

/-- R125: both timers tick exactly once at the end of every completed step, after the instruction's own write, and not
in a step that faults or is taken while a fault is latched (the spec's decisions D11 and D12, log entry 7). -/
def Obligations.TimersTickOncePerCompletedStep : Prop :=
  ∀ s t : State, step s = .next t →
    (t.fault = none → ∃ w, fetch s = .ok w ∧
      (∀ x, decodeWord w = .ldDtX x → t.dt.toNat = (s.reg x).toNat - 1) ∧
      ((∀ x, decodeWord w ≠ .ldDtX x) → t.dt.toNat = s.dt.toNat - 1) ∧
      (∀ x, decodeWord w = .ldStX x → t.st.toNat = (s.reg x).toNat - 1) ∧
      ((∀ x, decodeWord w ≠ .ldStX x) → t.st.toNat = s.st.toNat - 1)) ∧
    (t.fault ≠ none → t.dt = s.dt ∧ t.st = s.st)

/-- R130: over all instructions, a step changes the keys, the latch, memory, the framebuffer, the stack and `I` only
where the spec says so (the closed reading, the spec's decision D28, log entry 16), and never the font parameter of R27.
The last two clauses, on the count of random bytes and on the reports, are about fields that are the model's own (log
entries 1 and 4, DESIGN CHOICE). `V`, `DT` and `ST` have statements of their own. -/
def Obligations.StepWritesOnlyTheStateNamed : Prop :=
  ∀ (s t : State) (w : Word), s.fault = none → fetch s = .ok w → step s = .next t →
    t.keys = s.keys ∧ t.font = s.font ∧
    (t.fault ≠ s.fault → ∃ f, t = { s with fault := some f }) ∧
    ((∃ a, readByte t.mem a ≠ readByte s.mem a) → ∃ x, decodeWord w = .ldBX x ∨ decodeWord w = .stRegs x) ∧
    (t.fb ≠ s.fb → decodeWord w = .cls ∨ ∃ x y n, decodeWord w = .drw x y n) ∧
    (t.stack ≠ s.stack → decodeWord w = .ret ∨ ∃ nnn, decodeWord w = .call nnn) ∧
    (t.i ≠ s.i → (∃ nnn, decodeWord w = .ldI nnn) ∨ ∃ x, decodeWord w = .addIX x ∨ decodeWord w = .ldFX x) ∧
    (t.rndCount ≠ s.rndCount → ∃ x nn, decodeWord w = .rnd x nn) ∧
    (t.reports ≠ s.reports → decodeWord w = .unimpl w)

/-- R21, R22: a step changes only the registers the lists there name for its instruction; in particular no other
instruction writes `VF` as a side effect (the spec's decision D28, log entry 16). -/
def Obligations.StepWritesOnlyTheRegistersListed : Prop :=
  ∀ (s t : State) (w : Word) (r : Reg), fetch s = .ok w → step s = .next t → r ∉ writtenRegs (decodeWord w) →
    t.reg r = s.reg r

/-- The invariant holds at the reset of a machine with any font: canonical memory, the bounds of R25 and R142, no misfit
fault (the reset state of log entries 2 and 3). -/
def Obligations.InvariantHoldsAtReset : Prop :=
  State.reset.Inv ∧ ∀ font : Vector Byte 80, (State.resetWithFont font).Inv

/-- R25, R142, R252: every step keeps the invariant: memory canonical, `PC` at most 0x10FE, return addresses 0x0002 to
0x1000, a latched fault fitting its state. That memory is a canonical list is the model's own form. -/
def Obligations.StepKeepsTheInvariant : Prop := ∀ s t : State, s.Inv → step s = .next t → t.Inv

/-- R12: every move of the host keeps the invariant as well, so it holds after any interleaving of moves (the
spec's decision D25, log entry 8). -/
def Obligations.EveryMoveSequenceKeepsTheInvariant : Prop :=
  ∀ (ms : List Move) (s : State), s.Inv → (applyMoves ms s).Inv

/-- R37, R257, R268: only `reset` clears a latched fault; every other move leaves it, and all else but memory and the
key levels, as it was (the spec's decisions D12 and D25, log entries 7 and 8). -/
def Obligations.OnlyResetClearsALatchedFault : Prop :=
  ∀ (ms : List Move) (s : State), s.fault ≠ none → .host .reset ∉ ms →
    (applyMoves ms s).fault = s.fault ∧ SameBut [.mem, .keys] s (applyMoves ms s)

/-- R73, R76: a program that stores the two bytes of the instruction after it runs the stored instruction next. -/
def Obligations.StoreIsSeenByTheNextFetch : Prop :=
  ∀ (s : State) (w : Word) (x k k' : Reg), s.fault = none → fetch s = .ok w → decodeWord w = .stRegs x →
    s.i.toNat + x.val ≤ 0xFFF → k'.val = k.val + 1 → k' ≤ x → effAddr s k.val = s.pc + 2 →
    ∃ t, step s = .next t ∧ fetch t = .ok (wordOfBytes (s.reg k) (s.reg k'))

/-- R33, R39: no instruction reads `ST`: two states that differ only in `ST` step to states that differ at most in
`ST`. -/
def Obligations.SoundTimerIsReadByNoInstruction : Prop :=
  ∀ (s : State) (b : Byte), ∃ t u, step s = .next t ∧ step { s with st := b } = .next u ∧ { u with st := t.st } = t

/-- R258: the reports are an output: no step depends on those emitted before. The trace is the model's own field (log
entry 4). -/
def Obligations.NoStepDependsOnTheReports : Prop :=
  ∀ (s : State) (l : List Report), ∃ t u, step s = .next t ∧ step { s with reports := l } = .next u ∧
    { u with reports := t.reports } = t

/-- R301 and the source's own property "Timer decay": after `FX15` with `V[X] = n`, `m` more steps without another
write to `DT` leave `max(n - 1 - m, 0)`. The spec derives R301 from R125 and R234. -/
def Obligations.DelayTimerDecays : Prop :=
  ∀ (s : State) (w : Word) (x : Reg) (run : Nat → State) (m : Nat), s.fault = none → fetch s = .ok w →
    decodeWord w = .ldDtX x → step s = .next (run 0) →
    (∀ k, k < m → step (run k) = .next (run (k + 1)) ∧ (run (k + 1)).fault = none ∧
      ∀ v y, fetch (run k) = .ok v → decodeWord v ≠ .ldDtX y) →
    (run m).dt.toNat = (s.reg x).toNat - 1 - m

/-- R305: from any running state, zero bytes from `PC` to the end of memory are walked two bytes a step, a report each;
the spec derives it from R128. That the reports are kept in a trace is the model's choice (log entry 4). -/
def Obligations.ZeroMemoryIsWalkedThrough : Prop :=
  ∀ (s : State) (n : Nat), s.fault = none → s.pc.toNat + 2 * n ≤ 0x1000 →
    (∀ a : Addr, s.pc.toNat ≤ a.toNat → a.toNat ≤ 0xFFF → readByte s.mem a = .ok 0#8) →
    ∃ t, Host.Core.run Sys2Proof.core n s = .next t ∧ t.pc.toNat = s.pc.toNat + 2 * n ∧
      t.reports.length = s.reports.length + n ∧ SameBut [.pc, .dt, .st, .reports] s t

/-- R297: stepping before any load walks through `UNIMPL` words, a report each, until the fetch at 0x1000 faults. It
rests on the zero reset memory (the spec's decision D7, log entry 3); the spec derives R297. The clause on the length
of the trace is about a field of the model's own (log entry 4, DESIGN CHOICE). -/
def Obligations.UnloadedMemoryIsWalkedToItsEnd : Prop :=
  (∀ n : Nat, n ≤ 1792 → ∃ t, Host.Core.run Sys2Proof.core n State.reset = .next t ∧ t.pc.toNat = 0x200 + 2 * n ∧
    t.fault = none ∧ t.reports.length = n) ∧
  ∃ t, Host.Core.run Sys2Proof.core 1793 State.reset = .next t ∧ t.fault = some (.memoryAddressFault 0x1000#16) ∧
    t.pc = 0x1000#16

/-- The canonical form makes equal memories equal data: two canonical memories that read alike are the same list. -/
def Obligations.CanonicalMemoriesThatReadAlikeAreEqual : Prop :=
  ∀ m m' : Memory, Memory.wf m → Memory.wf m' → (∀ a : Addr, readByte m a = readByte m' a) → m = m'

/-! ### Control transfer (41_control_flow.md) -/

/-- R141, R144: the jumps, with their encodings; the sum of `BNNN` is not reduced. -/
def Obligations.JumpsReplaceThePc : Prop :=
  EncodedAs 0xF000#16 0x1000#16 (fun w => .jp (fieldNNN w)) ∧
  EncodedAs 0xF000#16 0xB000#16 (fun w => .jpV0 (fieldNNN w)) ∧
  ∀ (nnn : Imm12) (s : State),
    (∃ t, exec (.jp nnn) s = .next t ∧ t.pc.toNat = nnn.toNat ∧ SameBut [.pc] s t) ∧
    (∃ t, exec (.jpV0 nnn) s = .next t ∧ t.pc.toNat = nnn.toNat + (s.reg 0).toNat ∧ SameBut [.pc] s t)

/-- R142: the call pushes the address of the instruction after it, on a stack of any depth (the spec's decision D9, log
entry 6). -/
def Obligations.CallPushesTheReturnAddress : Prop :=
  EncodedAs 0xF000#16 0x2000#16 (fun w => .call (fieldNNN w)) ∧
  ∀ (nnn : Imm12) (s : State), ∃ t, exec (.call nnn) s = .next t ∧ t.stack = s.stack ++ [s.pc + 2] ∧
    t.pc.toNat = nnn.toNat ∧ SameBut [.pc, .stack] s t

/-- R143, R251: the return pops the most recently pushed address; on an empty stack the whole step leaves everything
but the latch (the latch is the spec's decision D12, log entry 7). -/
def Obligations.ReturnPopsOrUnderflows : Prop :=
  EncodedAs 0xFFFF#16 0x00EE#16 (fun _ => .ret) ∧
  ∀ s : State,
    (∀ (rest : List Addr) (a : Addr), s.stack = rest ++ [a] →
      ∃ t, exec .ret s = .next t ∧ t.pc = a ∧ t.stack = rest ∧ SameBut [.pc, .stack] s t) ∧
    (s.stack = [] → exec .ret s = .next { s with fault := some .stackUnderflow }) ∧
    (s.stack = [] → s.fault = none → fetch s = .ok 0x00EE#16 →
      step s = .next { s with fault := some .stackUnderflow })

/-- R145 to R148: the four skips, with their encodings. -/
def Obligations.SkipsPassOneInstruction : Prop :=
  EncodedAs 0xF000#16 0x3000#16 (fun w => .seXNN (fieldX w) (fieldNN w)) ∧
  EncodedAs 0xF000#16 0x4000#16 (fun w => .sneXNN (fieldX w) (fieldNN w)) ∧
  EncodedAs 0xF00F#16 0x5000#16 (fun w => .seXY (fieldX w) (fieldY w)) ∧
  EncodedAs 0xF00F#16 0x9000#16 (fun w => .sneXY (fieldX w) (fieldY w)) ∧
  ∀ (x y : Reg) (nn : Byte) (s : State),
    (∃ t, exec (.seXNN x nn) s = .next t ∧ SameBut [.pc] s t ∧
      t.pc = if s.reg x = nn then s.pc + 4 else s.pc + 2) ∧
    (∃ t, exec (.sneXNN x nn) s = .next t ∧ SameBut [.pc] s t ∧
      t.pc = if s.reg x = nn then s.pc + 2 else s.pc + 4) ∧
    (∃ t, exec (.seXY x y) s = .next t ∧ SameBut [.pc] s t ∧
      t.pc = if s.reg x = s.reg y then s.pc + 4 else s.pc + 2) ∧
    (∃ t, exec (.sneXY x y) s = .next t ∧ SameBut [.pc] s t ∧
      t.pc = if s.reg x = s.reg y then s.pc + 2 else s.pc + 4)

/-- The source's own property "Call/return round-trip" (R142, R143, 95_test_vectors.md S5), for any call whose target
can be fetched. -/
def Obligations.CallThenReturnComesBack : Prop :=
  ∀ (s : State) (nnn : Imm12), s.fault = none → fetch s = .ok (encode (.call nnn)) →
    readWord s.mem (nnn.setWidth 16) = .ok 0x00EE#16 →
    ∃ t u, step s = .next t ∧ step t = .next u ∧ u.pc = s.pc + 2 ∧ SameBut [.pc, .dt, .st] s u

/-! ### Load, arithmetic, logic, shift, random (42_load_alu.md) -/

/-- R161, R163 to R166: load, copy and the bitwise operations; none writes a flag (for `8XY1`, `8XY2`, `8XY3` the spec's
decision D28, log entry 16). -/
def Obligations.LoadsAndLogicWriteOneRegister : Prop :=
  EncodedAs 0xF000#16 0x6000#16 (fun w => .ldXNN (fieldX w) (fieldNN w)) ∧
  EncodedAs 0xF00F#16 0x8000#16 (fun w => .ldXY (fieldX w) (fieldY w)) ∧
  EncodedAs 0xF00F#16 0x8001#16 (fun w => .orXY (fieldX w) (fieldY w)) ∧
  EncodedAs 0xF00F#16 0x8002#16 (fun w => .andXY (fieldX w) (fieldY w)) ∧
  EncodedAs 0xF00F#16 0x8003#16 (fun w => .xorXY (fieldX w) (fieldY w)) ∧
  ∀ (x y : Reg) (nn : Byte) (s : State),
    (∃ t, exec (.ldXNN x nn) s = .next t ∧ t.pc = s.pc + 2 ∧ SameBut [.pc, .reg x] s t ∧ t.reg x = nn) ∧
    (∃ t, exec (.ldXY x y) s = .next t ∧ t.pc = s.pc + 2 ∧ SameBut [.pc, .reg x] s t ∧ t.reg x = s.reg y) ∧
    (∃ t, exec (.orXY x y) s = .next t ∧ t.pc = s.pc + 2 ∧ SameBut [.pc, .reg x] s t ∧
      ∀ k, (t.reg x).getLsbD k = ((s.reg x).getLsbD k || (s.reg y).getLsbD k)) ∧
    (∃ t, exec (.andXY x y) s = .next t ∧ t.pc = s.pc + 2 ∧ SameBut [.pc, .reg x] s t ∧
      ∀ k, (t.reg x).getLsbD k = ((s.reg x).getLsbD k && (s.reg y).getLsbD k)) ∧
    (∃ t, exec (.xorXY x y) s = .next t ∧ t.pc = s.pc + 2 ∧ SameBut [.pc, .reg x] s t ∧
      ∀ k, (t.reg x).getLsbD k = ((s.reg x).getLsbD k ^^ (s.reg y).getLsbD k))

/-- R162: the sum modulo 256, and no flag. -/
def Obligations.AddImmediateWrapsWithoutFlag : Prop :=
  EncodedAs 0xF000#16 0x7000#16 (fun w => .addXNN (fieldX w) (fieldNN w)) ∧
  ∀ (x : Reg) (nn : Byte) (s : State), ∃ t, exec (.addXNN x nn) s = .next t ∧ t.pc = s.pc + 2 ∧
    (t.reg x).toNat = ((s.reg x).toNat + nn.toNat) % 256 ∧ SameBut [.pc, .reg x] s t

/-- R167: the sum modulo 256 and the carry; with `X = F` the sum is what `VF` holds and the carry is lost. -/
def Obligations.AddSetsTheCarry : Prop :=
  EncodedAs 0xF00F#16 0x8004#16 (fun w => .addXY (fieldX w) (fieldY w)) ∧
  ∀ (x y : Reg) (s : State), ∃ t, exec (.addXY x y) s = .next t ∧ t.pc = s.pc + 2 ∧
    (t.reg x).toNat = ((s.reg x).toNat + (s.reg y).toNat) % 256 ∧
    (x ≠ regF → (t.reg regF).toNat = if 255 < (s.reg x).toNat + (s.reg y).toNat then 1 else 0) ∧
    SameBut [.pc, .reg x, .reg regF] s t

/-- R160, R168, R170: the subtractions, for every `X` and `Y`: the flag from the old registers is written first, the
result is computed from the registers after that write (`mid`), and is written last (the spec's decision D13,
log entry 10). -/
def Obligations.SubtractionsWriteFlagThenResult : Prop :=
  EncodedAs 0xF00F#16 0x8005#16 (fun w => .sub (fieldX w) (fieldY w)) ∧
  EncodedAs 0xF00F#16 0x8007#16 (fun w => .subn (fieldX w) (fieldY w)) ∧
  ∀ (x y : Reg) (s : State),
    (let flag : Nat := if (s.reg y).toNat ≤ (s.reg x).toNat then 1 else 0
     let mid : Reg → Int := fun r => if r = regF then flag else (s.reg r).toNat
     ∃ t, exec (.sub x y) s = .next t ∧ t.pc = s.pc + 2 ∧ ((t.reg x).toNat : Int) = (mid x - mid y) % 256 ∧
       (x ≠ regF → (t.reg regF).toNat = flag) ∧ SameBut [.pc, .reg x, .reg regF] s t) ∧
    (let flag : Nat := if (s.reg x).toNat ≤ (s.reg y).toNat then 1 else 0
     let mid : Reg → Int := fun r => if r = regF then flag else (s.reg r).toNat
     ∃ t, exec (.subn x y) s = .next t ∧ t.pc = s.pc + 2 ∧ ((t.reg x).toNat : Int) = (mid y - mid x) % 256 ∧
       (x ≠ regF → (t.reg regF).toNat = flag) ∧ SameBut [.pc, .reg x, .reg regF] s t)

/-- R160, R169, R171: the shifts of `V[Y]` into `V[X]`, for every `X` and `Y`, in the same order (the spec's decision
D13, log entry 10). -/
def Obligations.ShiftsWriteFlagThenResult : Prop :=
  EncodedAs 0xF00F#16 0x8006#16 (fun w => .shr (fieldX w) (fieldY w)) ∧
  EncodedAs 0xF00F#16 0x800E#16 (fun w => .shl (fieldX w) (fieldY w)) ∧
  ∀ (x y : Reg) (s : State),
    (let flag : Nat := (s.reg y).toNat % 2
     let mid : Nat := if y = regF then flag else (s.reg y).toNat
     ∃ t, exec (.shr x y) s = .next t ∧ t.pc = s.pc + 2 ∧ (t.reg x).toNat = mid / 2 ∧
       (x ≠ regF → (t.reg regF).toNat = flag) ∧ SameBut [.pc, .reg x, .reg regF] s t) ∧
    (let flag : Nat := (s.reg y).toNat / 128
     let mid : Nat := if y = regF then flag else (s.reg y).toNat
     ∃ t, exec (.shl x y) s = .next t ∧ t.pc = s.pc + 2 ∧ (t.reg x).toNat = mid * 2 % 256 ∧
       (x ≠ regF → (t.reg regF).toNat = flag) ∧ SameBut [.pc, .reg x, .reg regF] s t)

/-- R174: the fifteen rows of the aliasing table (the spec's decision D13, log entry 10). `r` is the operand that
is not `VF`. -/
def Obligations.AliasingTableHolds : Prop :=
  ∀ (r : Reg) (s : State), r ≠ regF →
    let f0 : Int := (s.reg regF).toNat
    let r0 : Int := (s.reg r).toNat
    let ge : Int → Int → Int := fun a b => if b ≤ a then 1 else 0
    let carry : Int → Int → Int := fun a b => if 255 < a + b then 1 else 0
    let v : State → Reg → Int := fun t q => (t.reg q).toNat
    (∃ t, exec (.addXY regF r) s = .next t ∧ v t regF = (f0 + r0) % 256) ∧
    (∃ t, exec (.addXY r regF) s = .next t ∧ v t r = (r0 + f0) % 256 ∧ v t regF = carry r0 f0) ∧
    (∃ t, exec (.addXY regF regF) s = .next t ∧ v t regF = (2 * f0) % 256) ∧
    (∃ t, exec (.sub regF r) s = .next t ∧ v t regF = (ge f0 r0 - r0) % 256) ∧
    (∃ t, exec (.sub r regF) s = .next t ∧ v t r = (r0 - ge r0 f0) % 256 ∧ v t regF = ge r0 f0) ∧
    (∃ t, exec (.sub regF regF) s = .next t ∧ v t regF = 0) ∧
    (∃ t, exec (.shr regF r) s = .next t ∧ v t regF = r0 / 2) ∧
    (∃ t, exec (.shr r regF) s = .next t ∧ v t r = 0 ∧ v t regF = f0 % 2) ∧
    (∃ t, exec (.shr regF regF) s = .next t ∧ v t regF = 0) ∧
    (∃ t, exec (.subn regF r) s = .next t ∧ v t regF = (r0 - ge r0 f0) % 256) ∧
    (∃ t, exec (.subn r regF) s = .next t ∧ v t r = (ge f0 r0 - r0) % 256 ∧ v t regF = ge f0 r0) ∧
    (∃ t, exec (.subn regF regF) s = .next t ∧ v t regF = 0) ∧
    (∃ t, exec (.shl regF r) s = .next t ∧ v t regF = (r0 * 2) % 256) ∧
    (∃ t, exec (.shl r regF) s = .next t ∧ v t r = 2 * (f0 / 128) ∧ v t regF = f0 / 128) ∧
    (∃ t, exec (.shl regF regF) s = .next t ∧ v t regF = 2 * (f0 / 128))

/-- R172, R274: the destination is the next random byte ANDed with `NN`, and the next draw is a fresh one. The byte
is a free value, whatever it is (log entry 1, DESIGN CHOICE). -/
def Obligations.RandomByteIsMasked : Prop :=
  EncodedAs 0xF000#16 0xC000#16 (fun w => .rnd (fieldX w) (fieldNN w)) ∧
  ∀ (x : Reg) (nn : Byte) (s : State), ∃ t, exec (.rnd x nn) s = .next t ∧ t.pc = s.pc + 2 ∧
    (∀ k, (t.reg x).getLsbD k = ((Config.randomByte s.rndCount).getLsbD k && nn.getLsbD k)) ∧
    t.rndCount = s.rndCount + 1 ∧ SameBut [.pc, .reg x, .rndCount] s t

/-! ### Index register and memory (43_index_memory.md) -/

/-- R190, R191: the index load, and the index add modulo 65536 without a flag (the spec's decisions
D26 and D28, log entries 18 and 16). -/
def Obligations.IndexIsLoadedAndAdded : Prop :=
  EncodedAs 0xF000#16 0xA000#16 (fun w => .ldI (fieldNNN w)) ∧
  EncodedAs 0xF0FF#16 0xF01E#16 (fun w => .addIX (fieldX w)) ∧
  ∀ (nnn : Imm12) (x : Reg) (s : State),
    (∃ t, exec (.ldI nnn) s = .next t ∧ t.pc = s.pc + 2 ∧ t.i.toNat = nnn.toNat ∧ SameBut [.pc, .i] s t) ∧
    (∃ t, exec (.addIX x) s = .next t ∧ t.pc = s.pc + 2 ∧ t.i.toNat = (s.i.toNat + (s.reg x).toNat) % 65536 ∧
      SameBut [.pc, .i] s t)

/-- R192: the glyph address; above digit 15 the formula goes on unmasked (the spec's decision D17, log entry 14). -/
def Obligations.GlyphAddressIsFiveTimesTheDigit : Prop :=
  EncodedAs 0xF0FF#16 0xF029#16 (fun w => .ldFX (fieldX w)) ∧
  ∀ (x : Reg) (s : State), ∃ t, exec (.ldFX x) s = .next t ∧ t.pc = s.pc + 2 ∧
    t.i.toNat = 0x050 + 5 * (s.reg x).toNat ∧ SameBut [.pc, .i] s t

/-- R193, R194: the three decimal digits at `I`, `I + 1`, `I + 2`, or the fault with nothing written (the
spec's decisions D10 and D11, log entries 19 and 7), `I` unchanged (D21, log entry 16). -/
def Obligations.DecimalDigitsAreStored : Prop :=
  EncodedAs 0xF0FF#16 0xF033#16 (fun w => .ldBX (fieldX w)) ∧
  ∀ (x : Reg) (s : State),
    (s.i.toNat + 2 ≤ 0xFFF → ∃ t, exec (.ldBX x) s = .next t ∧ t.pc = s.pc + 2 ∧
      readByte t.mem (effAddr s 0) = .ok (BitVec.ofNat 8 ((s.reg x).toNat / 100)) ∧
      readByte t.mem (effAddr s 1) = .ok (BitVec.ofNat 8 ((s.reg x).toNat / 10 % 10)) ∧
      readByte t.mem (effAddr s 2) = .ok (BitVec.ofNat 8 ((s.reg x).toNat % 10)) ∧
      (∀ a, a ≠ effAddr s 0 → a ≠ effAddr s 1 → a ≠ effAddr s 2 → readByte t.mem a = readByte s.mem a) ∧
      SameBut [.pc, .mem] s t) ∧
    (0xFFF < s.i.toNat + 2 → ∃ a : Addr, a.toNat = max s.i.toNat 0x1000 ∧
      exec (.ldBX x) s = .next { s with fault := some (.memoryAddressFault a) })

/-- R195: `V[0]` to `V[X]` at `I` upward, or the fault with nothing written (the spec's decisions D10 and
D11, log entries 19 and 7); `I` is unchanged (D21, log entry 16). -/
def Obligations.RegistersAreStored : Prop :=
  EncodedAs 0xF0FF#16 0xF055#16 (fun w => .stRegs (fieldX w)) ∧
  ∀ (x : Reg) (s : State),
    (s.i.toNat + x.val ≤ 0xFFF → ∃ t, exec (.stRegs x) s = .next t ∧ t.pc = s.pc + 2 ∧
      (∀ k : Reg, k ≤ x → readByte t.mem (effAddr s k.val) = .ok (s.reg k)) ∧
      (∀ a, (∀ k : Reg, k ≤ x → a ≠ effAddr s k.val) → readByte t.mem a = readByte s.mem a) ∧
      SameBut [.pc, .mem] s t) ∧
    (0xFFF < s.i.toNat + x.val → ∃ a : Addr, a.toNat = max s.i.toNat 0x1000 ∧
      exec (.stRegs x) s = .next { s with fault := some (.memoryAddressFault a) })

/-- R196: `V[0]` to `V[X]` from `I` upward, the registers above `X` unchanged, or the fault with nothing loaded
(the spec's decisions D10 and D11, log entries 19 and 7); `I` is unchanged (D21, log entry 16). -/
def Obligations.RegistersAreLoaded : Prop :=
  EncodedAs 0xF0FF#16 0xF065#16 (fun w => .ldRegs (fieldX w)) ∧
  ∀ (x : Reg) (s : State),
    (s.i.toNat + x.val ≤ 0xFFF → ∃ t, exec (.ldRegs x) s = .next t ∧ t.pc = s.pc + 2 ∧
      (∀ k : Reg, k ≤ x → readByte s.mem (effAddr s k.val) = .ok (t.reg k)) ∧
      SameBut (.pc :: ((List.finRange 16).filter (· ≤ x)).map .reg) s t) ∧
    (0xFFF < s.i.toNat + x.val → ∃ a : Addr, a.toNat = max s.i.toNat 0x1000 ∧
      exec (.ldRegs x) s = .next { s with fault := some (.memoryAddressFault a) })

/-! ### Display (44_display.md) -/

/-- R211: every pixel off, `VF` untouched (the spec's decision D28, log entry 16). -/
def Obligations.ClearTurnsEveryPixelOff : Prop :=
  EncodedAs 0xFFFF#16 0x00E0#16 (fun _ => .cls) ∧
  ∀ s : State, ∃ t, exec .cls s = .next t ∧ t.pc = s.pc + 2 ∧
    (∀ x y, x < 64 → y < 32 → px t.fb x y = false) ∧ SameBut [.pc, .fb] s t

/-- R212, R213, R214: every pixel of the grid becomes itself XOR the sprite bit aimed at it, `VF` tells whether a
sprite bit met a lit pixel, and a row above 0xFFF faults with nothing drawn. The origin is the old `V[X]`, `V[Y]`, also
for `VF`; clipped rows are read (the spec's decision D14, log entry 11); the fault is that of D10 and D11 (log entries
19 and 7). -/
def Obligations.DrawXorsTheSprite : Prop :=
  EncodedAs 0xF000#16 0xD000#16 (fun w => .drw (fieldX w) (fieldY w) (fieldN w)) ∧
  ∀ (x y : Reg) (n : Nibble) (s : State),
    let ox := (s.reg x).toNat % 64
    let oy := (s.reg y).toNat % 32
    (n.toNat = 0 ∨ s.i.toNat + n.toNat - 1 ≤ 0xFFF → ∃ (t : State) (rows : List Byte), rows.length = n.toNat ∧
      (∀ k, k < n.toNat → readByte s.mem (effAddr s k) = .ok (rows.getD k 0)) ∧
      exec (.drw x y n) s = .next t ∧ t.pc = s.pc + 2 ∧
      (∀ c r, c < 64 → r < 32 → px t.fb c r = (px s.fb c r ^^ aimedBit ox oy rows c r)) ∧
      (t.reg regF = 0#8 ∨ t.reg regF = 1#8) ∧
      (t.reg regF = 1#8 ↔ ∃ c r, c < 64 ∧ r < 32 ∧ aimedBit ox oy rows c r = true ∧ px s.fb c r = true) ∧
      SameBut [.pc, .fb, .reg regF] s t) ∧
    (0 < n.toNat ∧ 0xFFF < s.i.toNat + n.toNat - 1 → ∃ a : Addr, a.toNat = max s.i.toNat 0x1000 ∧
      exec (.drw x y n) s = .next { s with fault := some (.memoryAddressFault a) })

/-- The source's own property "Draw idempotence" (R214 (c)): drawing twice at one place restores the grid, and the
second `VF` reports a collision exactly when the first draw turned some pixel on. -/
def Obligations.DrawingTwiceRestoresTheGrid : Prop :=
  ∀ (x y : Reg) (n : Nibble) (s : State), x ≠ regF → y ≠ regF → n.toNat = 0 ∨ s.i.toNat + n.toNat - 1 ≤ 0xFFF →
    ∃ t u, exec (.drw x y n) s = .next t ∧ exec (.drw x y n) t = .next u ∧ u.fb = s.fb ∧
      (u.reg regF = 1#8 ↔ ∃ c r, px s.fb c r = false ∧ px t.fb c r = true)

/-- R215 (a): with `N = 0` no row is read, so there is no fault whatever `I` holds; `VF` becomes 0 and no pixel
changes. -/
def Obligations.DrawOfNoRowsOnlyClearsTheFlag : Prop :=
  ∀ (x y : Reg) (s : State), ∃ t, exec (.drw x y 0#4) s = .next t ∧ t.pc = s.pc + 2 ∧ t.reg regF = 0#8 ∧
    SameBut [.pc, .reg regF] s t

/-! ### Keypad and timers (45_keypad_timers.md) -/

/-- R230 to R232: the key skips; an index above 15 names no key that is down (the spec's decision D16, log entry 13). -/
def Obligations.KeySkipsFollowTheLevel : Prop :=
  EncodedAs 0xF0FF#16 0xE09E#16 (fun w => .skp (fieldX w)) ∧
  EncodedAs 0xF0FF#16 0xE0A1#16 (fun w => .sknp (fieldX w)) ∧
  ∀ (x : Reg) (s : State),
    (∃ t, exec (.skp x) s = .next t ∧ SameBut [.pc] s t ∧
      (keyIsDown s (s.reg x).toNat → t.pc = s.pc + 4) ∧ (¬keyIsDown s (s.reg x).toNat → t.pc = s.pc + 2)) ∧
    (∃ t, exec (.sknp x) s = .next t ∧ SameBut [.pc] s t ∧
      (keyIsDown s (s.reg x).toNat → t.pc = s.pc + 2) ∧ (¬keyIsDown s (s.reg x).toNat → t.pc = s.pc + 4))

/-- R233 to R235: the timers are read and written before the tick of the step, which takes one off what `FX15` and
`FX18` wrote. -/
def Obligations.TimersAreReadAndWritten : Prop :=
  EncodedAs 0xF0FF#16 0xF007#16 (fun w => .ldXDt (fieldX w)) ∧
  EncodedAs 0xF0FF#16 0xF015#16 (fun w => .ldDtX (fieldX w)) ∧
  EncodedAs 0xF0FF#16 0xF018#16 (fun w => .ldStX (fieldX w)) ∧
  ∀ (x : Reg) (s : State),
    (∃ t, exec (.ldXDt x) s = .next t ∧ t.pc = s.pc + 2 ∧ t.reg x = s.dt ∧ SameBut [.pc, .reg x] s t) ∧
    (∃ t, exec (.ldDtX x) s = .next t ∧ t.pc = s.pc + 2 ∧ t.dt = s.reg x ∧ SameBut [.pc, .dt] s t) ∧
    (∃ t, exec (.ldStX x) s = .next t ∧ t.pc = s.pc + 2 ∧ t.st = s.reg x ∧ SameBut [.pc, .st] s t) ∧
    (∀ w, s.fault = none → fetch s = .ok w → decodeWord w = .ldXDt x →
      ∃ t, step s = .next t ∧ t.reg x = s.dt ∧ t.dt.toNat = s.dt.toNat - 1) ∧
    (∀ w, s.fault = none → fetch s = .ok w → decodeWord w = .ldDtX x →
      ∃ t, step s = .next t ∧ t.dt.toNat = (s.reg x).toNat - 1) ∧
    (∀ w, s.fault = none → fetch s = .ok w → decodeWord w = .ldStX x →
      ∃ t, step s = .next t ∧ t.st.toNat = (s.reg x).toNat - 1)

/-- R236: the key wait: the lowest key that is down (the spec's decision D18, log entry 15; by level, D19, log
entry 13), or parked with nothing changed. -/
def Obligations.KeyWaitLoadsTheLowestKeyOrParks : Prop :=
  EncodedAs 0xF0FF#16 0xF00A#16 (fun w => .ldXK (fieldX w)) ∧
  ∀ (x : Reg) (s : State),
    (∀ k, keyIsDown s k → (∀ j, j < k → ¬keyIsDown s j) → ∃ t, exec (.ldXK x) s = .next t ∧ t.pc = s.pc + 2 ∧
      (t.reg x).toNat = k ∧ SameBut [.pc, .reg x] s t) ∧
    ((∀ k, ¬keyIsDown s k) → ∃ t, exec (.ldXK x) s = .next t ∧ SameBut [] s t)

/-- R237: while no key is down a parked `FX0A` is executed anew in every step, and only the timers move; any number
of steps. -/
def Obligations.ParkedKeyWaitOnlyTicks : Prop :=
  ∀ (s : State) (w : Word) (x : Reg) (n : Nat), s.fault = none → fetch s = .ok w → decodeWord w = .ldXK x →
    (∀ k, ¬keyIsDown s k) → ∃ t, Host.Core.run Sys2Proof.core n s = .next t ∧ SameBut [.dt, .st] s t ∧
      t.dt.toNat = s.dt.toNat - n ∧ t.st.toNat = s.st.toNat - n

/-! ### The unrecognised instruction -/

/-- R128, R258: a report with `pc0` and the word, the advance of `PC`, and nothing else. That the report is kept in a
trace is the model's choice (log entry 4, DESIGN CHOICE). -/
def Obligations.UnrecognizedWordIsReportedAndSkipped : Prop :=
  ∀ (w : Word) (s : State), ∃ t, exec (.unimpl w) s = .next t ∧ t.pc = s.pc + 2 ∧
    t.reports = s.reports ++ [⟨s.pc, w⟩] ∧ SameBut [.pc, .reports] s t

/-! ### Reset and the host's moves (60_exceptions.md, 70_reset_and_hazards.md) -/

/-- R45, R291: the state after reset. The zeros of the registers, `I`, the timers, the keys and unassigned memory are
the spec's decisions D3 to D7 (log entry 3); the font bytes are the default of its parameter (D8, log entry 2). -/
def Obligations.ResetStateIsAsTabled : Prop :=
  State.reset.pc = 0x0200#16 ∧ (∀ r, State.reset.reg r = 0#8) ∧ State.reset.i = 0x0000#16 ∧ State.reset.stack = [] ∧
  State.reset.dt = 0#8 ∧ State.reset.st = 0#8 ∧ (∀ k, ¬keyIsDown State.reset k) ∧
  (∀ x y, px State.reset.fb x y = false) ∧ State.reset.fault = none ∧
  (∀ a : Addr, 0x050 ≤ a.toNat → a.toNat ≤ 0x09F →
    readByte State.reset.mem a = .ok (fontBytes.getD (a.toNat - 0x050) 0#8)) ∧
  (∀ a : Addr, a.toNat < 0x050 ∨ (0x09F < a.toNat ∧ a.toNat ≤ 0xFFF) → readByte State.reset.mem a = .ok 0#8)

/-- R27, D8: the font is a parameter of the machine. For any font the reset puts `FONT[k]` at 0x050 + k, is otherwise
the reset state, and no move, the host's reset included, changes the parameter; its default gives `State.reset` (log entry
2). The zeros outside the font are the spec's decision D7 (log entry 3). -/
def Obligations.FontParameterFillsTheGlyphs : Prop :=
  State.resetWithFont defaultFont = State.reset ∧
  ∀ font : Vector Byte 80,
    (State.resetWithFont font).font = font ∧ SameBut [.mem, .font] State.reset (State.resetWithFont font) ∧
    (∀ k (h : k < 80), readByte (State.resetWithFont font).mem (BitVec.ofNat 16 (0x050 + k)) = .ok font[k]) ∧
    (∀ a : Addr, a.toNat < 0x050 ∨ (0x09F < a.toNat ∧ a.toNat ≤ 0xFFF) →
      readByte (State.resetWithFont font).mem a = .ok 0#8) ∧
    ∀ (ms : List Move) (s : State), s.font = font → (applyMoves ms s).font = font

/-- R290: `reset` may be made in any state, cannot fail, and leaves the whole state of R45 with the font of this machine
(R27, D8, log entry 2); what is no state, the count of bytes drawn and the reports already emitted, goes on (log
entries 1 and 4). That `reset` is construction is the spec's decision D2, log entry 20. -/
def Obligations.HostResetRestoresTheResetState : Prop :=
  ∀ s : State, ∃ t, hostMove .reset s = .ok t ∧ SameBut [.rndCount, .reports] (State.resetWithFont s.font) t ∧
    (∀ k (h : k < 80), readByte t.mem (BitVec.ofNat 16 (0x050 + k)) = .ok s.font[k]) ∧
    t.rndCount = s.rndCount ∧ t.reports = s.reports

/-- R263: a load writes its bytes at 0x200 upward and nothing else; one byte too many and nothing is written. -/
def Obligations.LoadProgramCopiesTheImage : Prop :=
  ∀ (bytes : List Byte) (s : State),
    (bytes.length ≤ 3584 → ∃ t, hostMove (.loadProgram bytes) s = .ok t ∧
      (∀ j (h : j < bytes.length), readByte t.mem (BitVec.ofNat 16 (0x200 + j)) = .ok bytes[j]) ∧
      (∀ a : Addr, a.toNat < 0x200 ∨ 0x200 + bytes.length ≤ a.toNat → readByte t.mem a = readByte s.mem a) ∧
      SameBut [.mem] s t) ∧
    (3584 < bytes.length → hostMove (.loadProgram bytes) s = .error .programTooLarge ∧
      applyMove (.host (.loadProgram bytes)) s = s)

/-- R294, R68: after reset and a load the first instruction fetched is the image's first two bytes, the high byte
first. -/
def Obligations.FirstFetchAfterLoadReadsTheImage : Prop :=
  ∀ (s : State) (hi lo : Byte) (rest : List Byte), rest.length ≤ 3582 →
    fetch (applyMoves [.host .reset, .host (.loadProgram (hi :: lo :: rest))] s) = .ok (wordOfBytes hi lo)

/-- R264, R265: the key moves set and clear one level and nothing else; a key outside 0 to 15 is rejected with no
state change. -/
def Obligations.KeyMovesSetOneLevel : Prop :=
  ∀ (key : Nat) (s : State),
    (key < 16 → ∃ t, hostMove (.keyDown key) s = .ok t ∧ keyIsDown t key ∧
      (∀ k, k ≠ key → (keyIsDown t k ↔ keyIsDown s k)) ∧ SameBut [.keys] s t) ∧
    (key < 16 → ∃ t, hostMove (.keyUp key) s = .ok t ∧ ¬keyIsDown t key ∧
      (∀ k, k ≠ key → (keyIsDown t k ↔ keyIsDown s k)) ∧ SameBut [.keys] s t) ∧
    (16 ≤ key → hostMove (.keyDown key) s = .error .invalidKeyIndex ∧
      hostMove (.keyUp key) s = .error .invalidKeyIndex ∧ applyMove (.host (.keyDown key)) s = s ∧
      applyMove (.host (.keyUp key)) s = s)

/-- R217: the flat snapshot has 2048 elements and element `64 * y + x` is `Px(x, y)`. -/
def Obligations.SnapshotIsRowMajor : Prop :=
  ∀ s : State, (displaySnapshot s).length = 2048 ∧
    ∀ x y, x < 64 → y < 32 → (displaySnapshot s)[64 * y + x]? = some (px s.fb x y)
end

