-- ==== Sys2Proof/Laws/Decode.lean ====
section
/-! SUPPORT. The laws of the opcode map and of the encoder's formats (30_encoding.md R91 to R96). -/

namespace Sys2Proof

/-- Two rows differ in a bit that both of them fix. -/
abbrev OpcodeRow.Apart (r q : OpcodeRow) : Prop := (r.value ^^^ q.value) &&& (r.mask &&& q.mask) ≠ 0#16

theorem opcodeMap_apart : opcodeMap.Pairwise OpcodeRow.Apart := by decide

theorem OpcodeRow.Apart.not_both {r q : OpcodeRow} (h : r.Apart q) {w : Word} (hr : r.selects w = true)
    (hq : q.selects w = true) : False := by
  simp only [OpcodeRow.selects, beq_iff_eq] at hr hq
  apply h
  rw [← hr, ← hq]
  ext k hk
  simp only [BitVec.getElem_and, BitVec.getElem_xor, BitVec.getElem_zero]
  cases w[k] <;> cases r.mask[k] <;> cases q.mask[k] <;> rfl

/-- A word decodes to the instruction of any row that selects it: the order of testing does not matter (R95). -/
theorem decodeWord_of_selects {r : OpcodeRow} (hr : r ∈ opcodeMap) {w : Word} (hw : r.selects w = true) :
    decodeWord w = r.build w := by
  obtain ⟨before, after, hl⟩ := List.append_of_mem hr
  have hap := opcodeMap_apart
  rw [hl, List.pairwise_append] at hap
  have hfind : opcodeMap.find? (·.selects w) = some r := by
    rw [hl, List.find?_append]
    have : before.find? (·.selects w) = none := by
      rw [List.find?_eq_none]
      exact fun q hq e => (hap.2.2 q hq r (by simp)).not_both e hw
    simp [this, hw]
  rw [decodeWord, hfind]

/-- A word that no row selects decodes to `UNIMPL` (R100). -/
theorem decodeWord_of_none {w : Word} (h : ∀ r ∈ opcodeMap, r.selects w = false) : decodeWord w = .unimpl w := by
  have : opcodeMap.find? (·.selects w) = none := by
    rw [List.find?_eq_none]
    exact fun r hr => by simp [h r hr]
  rw [decodeWord, this]

/-! ### the bits of an encoded word -/

theorem encNNN_bit (c : Nibble) (nnn : Imm12) (k : Nat) :
    (encNNN c nnn).getLsbD k = if k < 12 then nnn.getLsbD k else c.getLsbD (k - 12) :=
  BitVec.getLsbD_append (x := c) (y := nnn) (i := k)

theorem encXNN_bit (c : Nibble) (x : Reg) (nn : Byte) (k : Nat) :
    (encXNN c x nn).getLsbD k = if k < 8 then nn.getLsbD k
      else if k < 12 then (BitVec.ofFin (w := 4) x).getLsbD (k - 8) else c.getLsbD (k - 12) := by
  have h := BitVec.getLsbD_append (x := c ++ BitVec.ofFin (w := 4) x) (y := nn) (i := k)
  refine Eq.trans h ?_
  by_cases h8 : k < 8
  · rw [if_pos h8, if_pos h8]
  · have e1 : k - 8 < 4 ↔ k < 12 := by omega
    have e2 : k - 8 - 4 = k - 12 := by omega
    rw [if_neg h8, if_neg h8, BitVec.getLsbD_append, e2]
    simp only [e1]

/-- Format `XYN` is format `XNN` with the byte made of `Y` and `N` (R91: `NN = 16*Y + N`). -/
theorem encXYN_eq (c : Nibble) (x y : Reg) (n : Nibble) :
    encXYN c x y n = encXNN c x (BitVec.ofFin (w := 4) y ++ n) := by
  have := BitVec.append_assoc (x₁ := c ++ BitVec.ofFin (w := 4) x) (x₂ := BitVec.ofFin (w := 4) y) (x₃ := n)
  simpa [encXYN, encXNN] using this

theorem encXYN_bit (c : Nibble) (x y : Reg) (n : Nibble) (k : Nat) :
    (encXYN c x y n).getLsbD k = if k < 4 then n.getLsbD k
      else if k < 8 then (BitVec.ofFin (w := 4) y).getLsbD (k - 4)
      else if k < 12 then (BitVec.ofFin (w := 4) x).getLsbD (k - 8) else c.getLsbD (k - 12) := by
  rw [encXYN_eq, encXNN_bit]
  have h := BitVec.getLsbD_append (x := BitVec.ofFin (w := 4) y) (y := n) (i := k)
  by_cases h4 : k < 4
  · have h8 : k < 8 := by omega
    rw [if_pos h8, if_pos h4]; rw [if_pos h4] at h; exact h
  · by_cases h8 : k < 8
    · rw [if_pos h8, if_neg h4, if_pos h8]; rw [if_neg h4] at h; exact h
    · rw [if_neg h8, if_neg h4, if_neg h8]

/-- A 16-bit word from its bits. -/
theorem word_ext {v w : Word} (h : ∀ k, k < 16 → v.getLsbD k = w.getLsbD k) : v = w :=
  BitVec.eq_of_getLsbD_eq h

/-! ### the formats under their masks -/

theorem encNNN_mask (c : Nibble) (nnn : Imm12) : encNNN c nnn &&& 0xF000#16 = encNNN c 0 := by
  apply word_ext
  intro k hk
  rw [BitVec.getLsbD_and, encNNN_bit, encNNN_bit]
  interval_cases k <;> simp

theorem encXNN_mask (c : Nibble) (x : Reg) (nn : Byte) : encXNN c x nn &&& 0xF000#16 = encXNN c 0 0 := by
  apply word_ext
  intro k hk
  rw [BitVec.getLsbD_and, encXNN_bit, encXNN_bit]
  interval_cases k <;> simp

theorem encX_mask (c : Nibble) (x : Reg) (nn : Byte) : encXNN c x nn &&& 0xF0FF#16 = encXNN c 0 nn := by
  apply word_ext
  intro k hk
  rw [BitVec.getLsbD_and, encXNN_bit, encXNN_bit]
  interval_cases k <;> simp

theorem encXYN_mask (c : Nibble) (x y : Reg) (n : Nibble) : encXYN c x y n &&& 0xF000#16 = encXYN c 0 0 0 := by
  apply word_ext
  intro k hk
  rw [BitVec.getLsbD_and, encXYN_bit, encXYN_bit]
  interval_cases k <;> simp

theorem encXY_mask (c : Nibble) (x y : Reg) (n : Nibble) : encXYN c x y n &&& 0xF00F#16 = encXYN c 0 0 n := by
  apply word_ext
  intro k hk
  rw [BitVec.getLsbD_and, encXYN_bit, encXYN_bit]
  interval_cases k <;> simp

/-! ### the fields of an encoded word -/

theorem fieldNNN_encNNN (c : Nibble) (nnn : Imm12) : fieldNNN (encNNN c nnn) = nnn := by
  apply BitVec.eq_of_getLsbD_eq
  intro k hk
  simp [fieldNNN, encNNN_bit, hk]

theorem fieldX_encXNN (c : Nibble) (x : Reg) (nn : Byte) : fieldX (encXNN c x nn) = x := by
  have : (encXNN c x nn).extractLsb' 8 4 = BitVec.ofFin (w := 4) x := by
    apply BitVec.eq_of_getLsbD_eq
    intro k hk
    have h : 8 + k < 12 := by omega
    simp [encXNN_bit, hk, h]
  rw [fieldX, this]

theorem fieldNN_encXNN (c : Nibble) (x : Reg) (nn : Byte) : fieldNN (encXNN c x nn) = nn := by
  apply BitVec.eq_of_getLsbD_eq
  intro k hk
  simp [fieldNN, encXNN_bit, hk]

theorem fieldX_encXYN (c : Nibble) (x y : Reg) (n : Nibble) : fieldX (encXYN c x y n) = x := by
  rw [encXYN_eq, fieldX_encXNN]

theorem fieldY_encXYN (c : Nibble) (x y : Reg) (n : Nibble) : fieldY (encXYN c x y n) = y := by
  have : (encXYN c x y n).extractLsb' 4 4 = BitVec.ofFin (w := 4) y := by
    apply BitVec.eq_of_getLsbD_eq
    intro k hk
    have h : 4 + k < 8 := by omega
    simp [encXYN_bit, hk, h]
  rw [fieldY, this]

theorem fieldN_encXYN (c : Nibble) (x y : Reg) (n : Nibble) : fieldN (encXYN c x y n) = n := by
  apply BitVec.eq_of_getLsbD_eq
  intro k hk
  simp [fieldN, encXYN_bit, hk]

/-- The two bytes of a word put together again are the word (R68). -/
theorem wordOfBytes_bytesOfWord (w : Word) : wordOfBytes (w.extractLsb' 8 8) (w.extractLsb' 0 8) = w := by
  apply word_ext
  intro k hk
  have h := BitVec.getLsbD_append (x := w.extractLsb' 8 8) (y := w.extractLsb' 0 8) (i := k)
  refine Eq.trans h ?_
  by_cases h8 : k < 8
  · simp [h8]
  · have e1 : k - 8 < 8 := by omega
    have e2 : 8 + (k - 8) = k := by omega
    simp [h8, e1, e2]

end Sys2Proof
end

