-- ==== Sys2Proof/Laws/Encoded.lean ====
section
/-! SUPPORT. The form in which claims state an encoding holds of every row of the opcode map. -/

namespace Sys2Proof.Machine

/-- Every word a row's mask and value select decodes to the row's instruction (R95). -/
theorem encodedAs_of_mem {r : OpcodeRow} (hr : r ∈ opcodeMap) : EncodedAs r.mask r.value r.build :=
  fun _ h => decodeWord_of_selects hr (by simpa [OpcodeRow.selects] using h)

end Sys2Proof.Machine
end

