-- ==== Sys2Proof/Laws/State.lean ====
section
/-! SUPPORT. One lemma per field per update of the state, so that no later proof unfolds a record update. -/

namespace Sys2Proof.Machine


/-! ### setReg -/

@[simp] theorem State.setReg_v (s : State) (r : Reg) (b : Byte) : (s.setReg r b).v = s.v.set r.val b := rfl
@[simp] theorem State.setReg_i (s : State) (r : Reg) (b : Byte) : (s.setReg r b).i = s.i := rfl
@[simp] theorem State.setReg_pc (s : State) (r : Reg) (b : Byte) : (s.setReg r b).pc = s.pc := rfl
@[simp] theorem State.setReg_mem (s : State) (r : Reg) (b : Byte) : (s.setReg r b).mem = s.mem := rfl
@[simp] theorem State.setReg_stack (s : State) (r : Reg) (b : Byte) : (s.setReg r b).stack = s.stack := rfl
@[simp] theorem State.setReg_fb (s : State) (r : Reg) (b : Byte) : (s.setReg r b).fb = s.fb := rfl
@[simp] theorem State.setReg_dt (s : State) (r : Reg) (b : Byte) : (s.setReg r b).dt = s.dt := rfl
@[simp] theorem State.setReg_st (s : State) (r : Reg) (b : Byte) : (s.setReg r b).st = s.st := rfl
@[simp] theorem State.setReg_keys (s : State) (r : Reg) (b : Byte) : (s.setReg r b).keys = s.keys := rfl
@[simp] theorem State.setReg_fault (s : State) (r : Reg) (b : Byte) : (s.setReg r b).fault = s.fault := rfl
@[simp] theorem State.setReg_font (s : State) (r : Reg) (b : Byte) : (s.setReg r b).font = s.font := rfl
@[simp] theorem State.setReg_rndCount (s : State) (r : Reg) (b : Byte) : (s.setReg r b).rndCount = s.rndCount := rfl
@[simp] theorem State.setReg_reports (s : State) (r : Reg) (b : Byte) : (s.setReg r b).reports = s.reports := rfl
@[simp] theorem State.setReg_halted (s : State) (r : Reg) (b : Byte) : (s.setReg r b).halted = s.halted := rfl

/-! ### loadRegs -/

@[simp] theorem State.loadRegs_v (s : State) (bs : List Byte) : (s.loadRegs bs).v = writeRegs s.v 0 bs := rfl
@[simp] theorem State.loadRegs_i (s : State) (bs : List Byte) : (s.loadRegs bs).i = s.i := rfl
@[simp] theorem State.loadRegs_pc (s : State) (bs : List Byte) : (s.loadRegs bs).pc = s.pc := rfl
@[simp] theorem State.loadRegs_mem (s : State) (bs : List Byte) : (s.loadRegs bs).mem = s.mem := rfl
@[simp] theorem State.loadRegs_stack (s : State) (bs : List Byte) : (s.loadRegs bs).stack = s.stack := rfl
@[simp] theorem State.loadRegs_fb (s : State) (bs : List Byte) : (s.loadRegs bs).fb = s.fb := rfl
@[simp] theorem State.loadRegs_dt (s : State) (bs : List Byte) : (s.loadRegs bs).dt = s.dt := rfl
@[simp] theorem State.loadRegs_st (s : State) (bs : List Byte) : (s.loadRegs bs).st = s.st := rfl
@[simp] theorem State.loadRegs_keys (s : State) (bs : List Byte) : (s.loadRegs bs).keys = s.keys := rfl
@[simp] theorem State.loadRegs_fault (s : State) (bs : List Byte) : (s.loadRegs bs).fault = s.fault := rfl
@[simp] theorem State.loadRegs_font (s : State) (bs : List Byte) : (s.loadRegs bs).font = s.font := rfl
@[simp] theorem State.loadRegs_rndCount (s : State) (bs : List Byte) : (s.loadRegs bs).rndCount = s.rndCount := rfl
@[simp] theorem State.loadRegs_reports (s : State) (bs : List Byte) : (s.loadRegs bs).reports = s.reports := rfl
@[simp] theorem State.loadRegs_halted (s : State) (bs : List Byte) : (s.loadRegs bs).halted = s.halted := rfl

/-! ### setI -/

@[simp] theorem State.setI_v (s : State) (a : Addr) : (s.setI a).v = s.v := rfl
@[simp] theorem State.setI_i (s : State) (a : Addr) : (s.setI a).i = a := rfl
@[simp] theorem State.setI_pc (s : State) (a : Addr) : (s.setI a).pc = s.pc := rfl
@[simp] theorem State.setI_mem (s : State) (a : Addr) : (s.setI a).mem = s.mem := rfl
@[simp] theorem State.setI_stack (s : State) (a : Addr) : (s.setI a).stack = s.stack := rfl
@[simp] theorem State.setI_fb (s : State) (a : Addr) : (s.setI a).fb = s.fb := rfl
@[simp] theorem State.setI_dt (s : State) (a : Addr) : (s.setI a).dt = s.dt := rfl
@[simp] theorem State.setI_st (s : State) (a : Addr) : (s.setI a).st = s.st := rfl
@[simp] theorem State.setI_keys (s : State) (a : Addr) : (s.setI a).keys = s.keys := rfl
@[simp] theorem State.setI_fault (s : State) (a : Addr) : (s.setI a).fault = s.fault := rfl
@[simp] theorem State.setI_font (s : State) (a : Addr) : (s.setI a).font = s.font := rfl
@[simp] theorem State.setI_rndCount (s : State) (a : Addr) : (s.setI a).rndCount = s.rndCount := rfl
@[simp] theorem State.setI_reports (s : State) (a : Addr) : (s.setI a).reports = s.reports := rfl
@[simp] theorem State.setI_reg (s : State) (a : Addr) (q : Reg) : (s.setI a).reg q = s.reg q := rfl
@[simp] theorem State.setI_halted (s : State) (a : Addr) : (s.setI a).halted = s.halted := rfl

/-! ### setPc -/

@[simp] theorem State.setPc_v (s : State) (a : Addr) : (s.setPc a).v = s.v := rfl
@[simp] theorem State.setPc_i (s : State) (a : Addr) : (s.setPc a).i = s.i := rfl
@[simp] theorem State.setPc_pc (s : State) (a : Addr) : (s.setPc a).pc = a := rfl
@[simp] theorem State.setPc_mem (s : State) (a : Addr) : (s.setPc a).mem = s.mem := rfl
@[simp] theorem State.setPc_stack (s : State) (a : Addr) : (s.setPc a).stack = s.stack := rfl
@[simp] theorem State.setPc_fb (s : State) (a : Addr) : (s.setPc a).fb = s.fb := rfl
@[simp] theorem State.setPc_dt (s : State) (a : Addr) : (s.setPc a).dt = s.dt := rfl
@[simp] theorem State.setPc_st (s : State) (a : Addr) : (s.setPc a).st = s.st := rfl
@[simp] theorem State.setPc_keys (s : State) (a : Addr) : (s.setPc a).keys = s.keys := rfl
@[simp] theorem State.setPc_fault (s : State) (a : Addr) : (s.setPc a).fault = s.fault := rfl
@[simp] theorem State.setPc_font (s : State) (a : Addr) : (s.setPc a).font = s.font := rfl
@[simp] theorem State.setPc_rndCount (s : State) (a : Addr) : (s.setPc a).rndCount = s.rndCount := rfl
@[simp] theorem State.setPc_reports (s : State) (a : Addr) : (s.setPc a).reports = s.reports := rfl
@[simp] theorem State.setPc_reg (s : State) (a : Addr) (q : Reg) : (s.setPc a).reg q = s.reg q := rfl
@[simp] theorem State.setPc_halted (s : State) (a : Addr) : (s.setPc a).halted = s.halted := rfl

/-! ### setMem -/

@[simp] theorem State.setMem_v (s : State) (m : Memory) : (s.setMem m).v = s.v := rfl
@[simp] theorem State.setMem_i (s : State) (m : Memory) : (s.setMem m).i = s.i := rfl
@[simp] theorem State.setMem_pc (s : State) (m : Memory) : (s.setMem m).pc = s.pc := rfl
@[simp] theorem State.setMem_mem (s : State) (m : Memory) : (s.setMem m).mem = m := rfl
@[simp] theorem State.setMem_stack (s : State) (m : Memory) : (s.setMem m).stack = s.stack := rfl
@[simp] theorem State.setMem_fb (s : State) (m : Memory) : (s.setMem m).fb = s.fb := rfl
@[simp] theorem State.setMem_dt (s : State) (m : Memory) : (s.setMem m).dt = s.dt := rfl
@[simp] theorem State.setMem_st (s : State) (m : Memory) : (s.setMem m).st = s.st := rfl
@[simp] theorem State.setMem_keys (s : State) (m : Memory) : (s.setMem m).keys = s.keys := rfl
@[simp] theorem State.setMem_fault (s : State) (m : Memory) : (s.setMem m).fault = s.fault := rfl
@[simp] theorem State.setMem_font (s : State) (m : Memory) : (s.setMem m).font = s.font := rfl
@[simp] theorem State.setMem_rndCount (s : State) (m : Memory) : (s.setMem m).rndCount = s.rndCount := rfl
@[simp] theorem State.setMem_reports (s : State) (m : Memory) : (s.setMem m).reports = s.reports := rfl
@[simp] theorem State.setMem_reg (s : State) (m : Memory) (q : Reg) : (s.setMem m).reg q = s.reg q := rfl
@[simp] theorem State.setMem_halted (s : State) (m : Memory) : (s.setMem m).halted = s.halted := rfl

/-! ### setStack -/

@[simp] theorem State.setStack_v (s : State) (l : List Addr) : (s.setStack l).v = s.v := rfl
@[simp] theorem State.setStack_i (s : State) (l : List Addr) : (s.setStack l).i = s.i := rfl
@[simp] theorem State.setStack_pc (s : State) (l : List Addr) : (s.setStack l).pc = s.pc := rfl
@[simp] theorem State.setStack_mem (s : State) (l : List Addr) : (s.setStack l).mem = s.mem := rfl
@[simp] theorem State.setStack_stack (s : State) (l : List Addr) : (s.setStack l).stack = l := rfl
@[simp] theorem State.setStack_fb (s : State) (l : List Addr) : (s.setStack l).fb = s.fb := rfl
@[simp] theorem State.setStack_dt (s : State) (l : List Addr) : (s.setStack l).dt = s.dt := rfl
@[simp] theorem State.setStack_st (s : State) (l : List Addr) : (s.setStack l).st = s.st := rfl
@[simp] theorem State.setStack_keys (s : State) (l : List Addr) : (s.setStack l).keys = s.keys := rfl
@[simp] theorem State.setStack_fault (s : State) (l : List Addr) : (s.setStack l).fault = s.fault := rfl
@[simp] theorem State.setStack_font (s : State) (l : List Addr) : (s.setStack l).font = s.font := rfl
@[simp] theorem State.setStack_rndCount (s : State) (l : List Addr) : (s.setStack l).rndCount = s.rndCount := rfl
@[simp] theorem State.setStack_reports (s : State) (l : List Addr) : (s.setStack l).reports = s.reports := rfl
@[simp] theorem State.setStack_reg (s : State) (l : List Addr) (q : Reg) : (s.setStack l).reg q = s.reg q := rfl
@[simp] theorem State.setStack_halted (s : State) (l : List Addr) : (s.setStack l).halted = s.halted := rfl

/-! ### push -/

@[simp] theorem State.push_v (s : State) (a : Addr) : (s.push a).v = s.v := rfl
@[simp] theorem State.push_i (s : State) (a : Addr) : (s.push a).i = s.i := rfl
@[simp] theorem State.push_pc (s : State) (a : Addr) : (s.push a).pc = s.pc := rfl
@[simp] theorem State.push_mem (s : State) (a : Addr) : (s.push a).mem = s.mem := rfl
@[simp] theorem State.push_stack (s : State) (a : Addr) : (s.push a).stack = s.stack ++ [a] := rfl
@[simp] theorem State.push_fb (s : State) (a : Addr) : (s.push a).fb = s.fb := rfl
@[simp] theorem State.push_dt (s : State) (a : Addr) : (s.push a).dt = s.dt := rfl
@[simp] theorem State.push_st (s : State) (a : Addr) : (s.push a).st = s.st := rfl
@[simp] theorem State.push_keys (s : State) (a : Addr) : (s.push a).keys = s.keys := rfl
@[simp] theorem State.push_fault (s : State) (a : Addr) : (s.push a).fault = s.fault := rfl
@[simp] theorem State.push_font (s : State) (a : Addr) : (s.push a).font = s.font := rfl
@[simp] theorem State.push_rndCount (s : State) (a : Addr) : (s.push a).rndCount = s.rndCount := rfl
@[simp] theorem State.push_reports (s : State) (a : Addr) : (s.push a).reports = s.reports := rfl
@[simp] theorem State.push_reg (s : State) (a : Addr) (q : Reg) : (s.push a).reg q = s.reg q := rfl
@[simp] theorem State.push_halted (s : State) (a : Addr) : (s.push a).halted = s.halted := rfl

/-! ### setFb -/

@[simp] theorem State.setFb_v (s : State) (g : Grid) : (s.setFb g).v = s.v := rfl
@[simp] theorem State.setFb_i (s : State) (g : Grid) : (s.setFb g).i = s.i := rfl
@[simp] theorem State.setFb_pc (s : State) (g : Grid) : (s.setFb g).pc = s.pc := rfl
@[simp] theorem State.setFb_mem (s : State) (g : Grid) : (s.setFb g).mem = s.mem := rfl
@[simp] theorem State.setFb_stack (s : State) (g : Grid) : (s.setFb g).stack = s.stack := rfl
@[simp] theorem State.setFb_fb (s : State) (g : Grid) : (s.setFb g).fb = g := rfl
@[simp] theorem State.setFb_dt (s : State) (g : Grid) : (s.setFb g).dt = s.dt := rfl
@[simp] theorem State.setFb_st (s : State) (g : Grid) : (s.setFb g).st = s.st := rfl
@[simp] theorem State.setFb_keys (s : State) (g : Grid) : (s.setFb g).keys = s.keys := rfl
@[simp] theorem State.setFb_fault (s : State) (g : Grid) : (s.setFb g).fault = s.fault := rfl
@[simp] theorem State.setFb_font (s : State) (g : Grid) : (s.setFb g).font = s.font := rfl
@[simp] theorem State.setFb_rndCount (s : State) (g : Grid) : (s.setFb g).rndCount = s.rndCount := rfl
@[simp] theorem State.setFb_reports (s : State) (g : Grid) : (s.setFb g).reports = s.reports := rfl
@[simp] theorem State.setFb_reg (s : State) (g : Grid) (q : Reg) : (s.setFb g).reg q = s.reg q := rfl
@[simp] theorem State.setFb_halted (s : State) (g : Grid) : (s.setFb g).halted = s.halted := rfl

/-! ### setDt -/

@[simp] theorem State.setDt_v (s : State) (b : Byte) : (s.setDt b).v = s.v := rfl
@[simp] theorem State.setDt_i (s : State) (b : Byte) : (s.setDt b).i = s.i := rfl
@[simp] theorem State.setDt_pc (s : State) (b : Byte) : (s.setDt b).pc = s.pc := rfl
@[simp] theorem State.setDt_mem (s : State) (b : Byte) : (s.setDt b).mem = s.mem := rfl
@[simp] theorem State.setDt_stack (s : State) (b : Byte) : (s.setDt b).stack = s.stack := rfl
@[simp] theorem State.setDt_fb (s : State) (b : Byte) : (s.setDt b).fb = s.fb := rfl
@[simp] theorem State.setDt_dt (s : State) (b : Byte) : (s.setDt b).dt = b := rfl
@[simp] theorem State.setDt_st (s : State) (b : Byte) : (s.setDt b).st = s.st := rfl
@[simp] theorem State.setDt_keys (s : State) (b : Byte) : (s.setDt b).keys = s.keys := rfl
@[simp] theorem State.setDt_fault (s : State) (b : Byte) : (s.setDt b).fault = s.fault := rfl
@[simp] theorem State.setDt_font (s : State) (b : Byte) : (s.setDt b).font = s.font := rfl
@[simp] theorem State.setDt_rndCount (s : State) (b : Byte) : (s.setDt b).rndCount = s.rndCount := rfl
@[simp] theorem State.setDt_reports (s : State) (b : Byte) : (s.setDt b).reports = s.reports := rfl
@[simp] theorem State.setDt_reg (s : State) (b : Byte) (q : Reg) : (s.setDt b).reg q = s.reg q := rfl
@[simp] theorem State.setDt_halted (s : State) (b : Byte) : (s.setDt b).halted = s.halted := rfl

/-! ### setSt -/

@[simp] theorem State.setSt_v (s : State) (b : Byte) : (s.setSt b).v = s.v := rfl
@[simp] theorem State.setSt_i (s : State) (b : Byte) : (s.setSt b).i = s.i := rfl
@[simp] theorem State.setSt_pc (s : State) (b : Byte) : (s.setSt b).pc = s.pc := rfl
@[simp] theorem State.setSt_mem (s : State) (b : Byte) : (s.setSt b).mem = s.mem := rfl
@[simp] theorem State.setSt_stack (s : State) (b : Byte) : (s.setSt b).stack = s.stack := rfl
@[simp] theorem State.setSt_fb (s : State) (b : Byte) : (s.setSt b).fb = s.fb := rfl
@[simp] theorem State.setSt_dt (s : State) (b : Byte) : (s.setSt b).dt = s.dt := rfl
@[simp] theorem State.setSt_st (s : State) (b : Byte) : (s.setSt b).st = b := rfl
@[simp] theorem State.setSt_keys (s : State) (b : Byte) : (s.setSt b).keys = s.keys := rfl
@[simp] theorem State.setSt_fault (s : State) (b : Byte) : (s.setSt b).fault = s.fault := rfl
@[simp] theorem State.setSt_font (s : State) (b : Byte) : (s.setSt b).font = s.font := rfl
@[simp] theorem State.setSt_rndCount (s : State) (b : Byte) : (s.setSt b).rndCount = s.rndCount := rfl
@[simp] theorem State.setSt_reports (s : State) (b : Byte) : (s.setSt b).reports = s.reports := rfl
@[simp] theorem State.setSt_reg (s : State) (b : Byte) (q : Reg) : (s.setSt b).reg q = s.reg q := rfl
@[simp] theorem State.setSt_halted (s : State) (b : Byte) : (s.setSt b).halted = s.halted := rfl

/-! ### setKeys -/

@[simp] theorem State.setKeys_v (s : State) (k : Vector Bool 16) : (s.setKeys k).v = s.v := rfl
@[simp] theorem State.setKeys_i (s : State) (k : Vector Bool 16) : (s.setKeys k).i = s.i := rfl
@[simp] theorem State.setKeys_pc (s : State) (k : Vector Bool 16) : (s.setKeys k).pc = s.pc := rfl
@[simp] theorem State.setKeys_mem (s : State) (k : Vector Bool 16) : (s.setKeys k).mem = s.mem := rfl
@[simp] theorem State.setKeys_stack (s : State) (k : Vector Bool 16) : (s.setKeys k).stack = s.stack := rfl
@[simp] theorem State.setKeys_fb (s : State) (k : Vector Bool 16) : (s.setKeys k).fb = s.fb := rfl
@[simp] theorem State.setKeys_dt (s : State) (k : Vector Bool 16) : (s.setKeys k).dt = s.dt := rfl
@[simp] theorem State.setKeys_st (s : State) (k : Vector Bool 16) : (s.setKeys k).st = s.st := rfl
@[simp] theorem State.setKeys_keys (s : State) (k : Vector Bool 16) : (s.setKeys k).keys = k := rfl
@[simp] theorem State.setKeys_fault (s : State) (k : Vector Bool 16) : (s.setKeys k).fault = s.fault := rfl
@[simp] theorem State.setKeys_font (s : State) (k : Vector Bool 16) : (s.setKeys k).font = s.font := rfl
@[simp] theorem State.setKeys_rndCount (s : State) (k : Vector Bool 16) : (s.setKeys k).rndCount = s.rndCount := rfl
@[simp] theorem State.setKeys_reports (s : State) (k : Vector Bool 16) : (s.setKeys k).reports = s.reports := rfl
@[simp] theorem State.setKeys_reg (s : State) (k : Vector Bool 16) (q : Reg) : (s.setKeys k).reg q = s.reg q := rfl
@[simp] theorem State.setKeys_halted (s : State) (k : Vector Bool 16) : (s.setKeys k).halted = s.halted := rfl

/-! ### setFault -/

@[simp] theorem State.setFault_v (s : State) (f : Option Fault) : (s.setFault f).v = s.v := rfl
@[simp] theorem State.setFault_i (s : State) (f : Option Fault) : (s.setFault f).i = s.i := rfl
@[simp] theorem State.setFault_pc (s : State) (f : Option Fault) : (s.setFault f).pc = s.pc := rfl
@[simp] theorem State.setFault_mem (s : State) (f : Option Fault) : (s.setFault f).mem = s.mem := rfl
@[simp] theorem State.setFault_stack (s : State) (f : Option Fault) : (s.setFault f).stack = s.stack := rfl
@[simp] theorem State.setFault_fb (s : State) (f : Option Fault) : (s.setFault f).fb = s.fb := rfl
@[simp] theorem State.setFault_dt (s : State) (f : Option Fault) : (s.setFault f).dt = s.dt := rfl
@[simp] theorem State.setFault_st (s : State) (f : Option Fault) : (s.setFault f).st = s.st := rfl
@[simp] theorem State.setFault_keys (s : State) (f : Option Fault) : (s.setFault f).keys = s.keys := rfl
@[simp] theorem State.setFault_fault (s : State) (f : Option Fault) : (s.setFault f).fault = f := rfl
@[simp] theorem State.setFault_font (s : State) (f : Option Fault) : (s.setFault f).font = s.font := rfl
@[simp] theorem State.setFault_rndCount (s : State) (f : Option Fault) : (s.setFault f).rndCount = s.rndCount := rfl
@[simp] theorem State.setFault_reports (s : State) (f : Option Fault) : (s.setFault f).reports = s.reports := rfl
@[simp] theorem State.setFault_reg (s : State) (f : Option Fault) (q : Reg) : (s.setFault f).reg q = s.reg q := rfl

/-! ### drawn -/

@[simp] theorem State.drawn_v (s : State) : (s.drawn).v = s.v := rfl
@[simp] theorem State.drawn_i (s : State) : (s.drawn).i = s.i := rfl
@[simp] theorem State.drawn_pc (s : State) : (s.drawn).pc = s.pc := rfl
@[simp] theorem State.drawn_mem (s : State) : (s.drawn).mem = s.mem := rfl
@[simp] theorem State.drawn_stack (s : State) : (s.drawn).stack = s.stack := rfl
@[simp] theorem State.drawn_fb (s : State) : (s.drawn).fb = s.fb := rfl
@[simp] theorem State.drawn_dt (s : State) : (s.drawn).dt = s.dt := rfl
@[simp] theorem State.drawn_st (s : State) : (s.drawn).st = s.st := rfl
@[simp] theorem State.drawn_keys (s : State) : (s.drawn).keys = s.keys := rfl
@[simp] theorem State.drawn_fault (s : State) : (s.drawn).fault = s.fault := rfl
@[simp] theorem State.drawn_font (s : State) : (s.drawn).font = s.font := rfl
@[simp] theorem State.drawn_rndCount (s : State) : (s.drawn).rndCount = s.rndCount + 1 := rfl
@[simp] theorem State.drawn_reports (s : State) : (s.drawn).reports = s.reports := rfl
@[simp] theorem State.drawn_reg (s : State) (q : Reg) : (s.drawn).reg q = s.reg q := rfl
@[simp] theorem State.drawn_halted (s : State) : (s.drawn).halted = s.halted := rfl

/-! ### report -/

@[simp] theorem State.report_v (s : State) (p : Addr) (w : Word) : (s.report p w).v = s.v := rfl
@[simp] theorem State.report_i (s : State) (p : Addr) (w : Word) : (s.report p w).i = s.i := rfl
@[simp] theorem State.report_pc (s : State) (p : Addr) (w : Word) : (s.report p w).pc = s.pc := rfl
@[simp] theorem State.report_mem (s : State) (p : Addr) (w : Word) : (s.report p w).mem = s.mem := rfl
@[simp] theorem State.report_stack (s : State) (p : Addr) (w : Word) : (s.report p w).stack = s.stack := rfl
@[simp] theorem State.report_fb (s : State) (p : Addr) (w : Word) : (s.report p w).fb = s.fb := rfl
@[simp] theorem State.report_dt (s : State) (p : Addr) (w : Word) : (s.report p w).dt = s.dt := rfl
@[simp] theorem State.report_st (s : State) (p : Addr) (w : Word) : (s.report p w).st = s.st := rfl
@[simp] theorem State.report_keys (s : State) (p : Addr) (w : Word) : (s.report p w).keys = s.keys := rfl
@[simp] theorem State.report_fault (s : State) (p : Addr) (w : Word) : (s.report p w).fault = s.fault := rfl
@[simp] theorem State.report_font (s : State) (p : Addr) (w : Word) : (s.report p w).font = s.font := rfl
@[simp] theorem State.report_rndCount (s : State) (p : Addr) (w : Word) : (s.report p w).rndCount = s.rndCount := rfl
@[simp] theorem State.report_reports (s : State) (p : Addr) (w : Word) : (s.report p w).reports = s.reports ++ [⟨p, w⟩] := rfl
@[simp] theorem State.report_reg (s : State) (p : Addr) (w : Word) (q : Reg) : (s.report p w).reg q = s.reg q := rfl
@[simp] theorem State.report_halted (s : State) (p : Addr) (w : Word) : (s.report p w).halted = s.halted := rfl

/-! ### advance -/

@[simp] theorem State.advance_v (s : State) : (s.advance).v = s.v := rfl
@[simp] theorem State.advance_i (s : State) : (s.advance).i = s.i := rfl
@[simp] theorem State.advance_pc (s : State) : (s.advance).pc = s.pc + 2 := rfl
@[simp] theorem State.advance_mem (s : State) : (s.advance).mem = s.mem := rfl
@[simp] theorem State.advance_stack (s : State) : (s.advance).stack = s.stack := rfl
@[simp] theorem State.advance_fb (s : State) : (s.advance).fb = s.fb := rfl
@[simp] theorem State.advance_dt (s : State) : (s.advance).dt = s.dt := rfl
@[simp] theorem State.advance_st (s : State) : (s.advance).st = s.st := rfl
@[simp] theorem State.advance_keys (s : State) : (s.advance).keys = s.keys := rfl
@[simp] theorem State.advance_fault (s : State) : (s.advance).fault = s.fault := rfl
@[simp] theorem State.advance_font (s : State) : (s.advance).font = s.font := rfl
@[simp] theorem State.advance_rndCount (s : State) : (s.advance).rndCount = s.rndCount := rfl
@[simp] theorem State.advance_reports (s : State) : (s.advance).reports = s.reports := rfl
@[simp] theorem State.advance_reg (s : State) (q : Reg) : (s.advance).reg q = s.reg q := rfl
@[simp] theorem State.advance_halted (s : State) : (s.advance).halted = s.halted := rfl

/-! ### tickTimers -/

@[simp] theorem State.tickTimers_v (s : State) : (s.tickTimers).v = s.v := rfl
@[simp] theorem State.tickTimers_i (s : State) : (s.tickTimers).i = s.i := rfl
@[simp] theorem State.tickTimers_pc (s : State) : (s.tickTimers).pc = s.pc := rfl
@[simp] theorem State.tickTimers_mem (s : State) : (s.tickTimers).mem = s.mem := rfl
@[simp] theorem State.tickTimers_stack (s : State) : (s.tickTimers).stack = s.stack := rfl
@[simp] theorem State.tickTimers_fb (s : State) : (s.tickTimers).fb = s.fb := rfl
@[simp] theorem State.tickTimers_dt (s : State) : (s.tickTimers).dt = tick s.dt := rfl
@[simp] theorem State.tickTimers_st (s : State) : (s.tickTimers).st = tick s.st := rfl
@[simp] theorem State.tickTimers_keys (s : State) : (s.tickTimers).keys = s.keys := rfl
@[simp] theorem State.tickTimers_fault (s : State) : (s.tickTimers).fault = s.fault := rfl
@[simp] theorem State.tickTimers_font (s : State) : (s.tickTimers).font = s.font := rfl
@[simp] theorem State.tickTimers_rndCount (s : State) : (s.tickTimers).rndCount = s.rndCount := rfl
@[simp] theorem State.tickTimers_reports (s : State) : (s.tickTimers).reports = s.reports := rfl
@[simp] theorem State.tickTimers_reg (s : State) (q : Reg) : (s.tickTimers).reg q = s.reg q := rfl
@[simp] theorem State.tickTimers_halted (s : State) : (s.tickTimers).halted = s.halted := rfl

/-! ### the register file -/

@[simp] theorem State.setReg_reg (s : State) (r q : Reg) (b : Byte) :
    (s.setReg r b).reg q = if q = r then b else s.reg q := by
  by_cases h : q = r
  · subst h; simp [State.reg]
  · have : r.val ≠ q.val := fun e => h (Fin.ext e.symm)
    simp [State.reg, this, h]

/-- Two register files with the same registers are the same. -/
theorem State.v_ext {s t : State} (h : ∀ r, t.reg r = s.reg r) : t.v = s.v := by
  apply Vector.ext
  intro k hk
  exact h ⟨k, hk⟩

theorem writeRegs_getElem (bs : List Byte) : ∀ (v : Vector Byte 16) (k q : Nat) (hq : q < 16),
    (writeRegs v k bs)[q] = if h : k ≤ q ∧ q < k + bs.length then bs[q - k]'(by omega) else v[q] := by
  induction bs with
  | nil =>
    intro v k q hq
    have : ¬(k ≤ q ∧ q < k + ([] : List Byte).length) := by simp
    rw [dif_neg this]; rfl
  | cons b bs ih =>
    intro v k q hq
    rw [writeRegs, ih]
    by_cases h1 : k + 1 ≤ q ∧ q < k + 1 + bs.length
    · have h2 : k ≤ q ∧ q < k + (b :: bs).length := by simp; omega
      have h3 : q - k = (q - (k + 1)) + 1 := by omega
      rw [dif_pos h1, dif_pos h2]
      simp [h3]
    · rw [dif_neg h1]
      by_cases h4 : k = q
      · subst h4
        have h2 : k ≤ k ∧ k < k + (b :: bs).length := by simp
        rw [dif_pos h2]
        simp
      · have h2 : ¬(k ≤ q ∧ q < k + (b :: bs).length) := by simp; omega
        rw [dif_neg h2]
        simp [h4]

/-- What a register holds after bytes are loaded from `V[0]` upward (R196). -/
theorem State.loadRegs_reg (s : State) (bs : List Byte) (q : Reg) :
    (s.loadRegs bs).reg q = if h : q.val < bs.length then bs[q.val] else s.reg q := by
  have := writeRegs_getElem bs s.v 0 q.val q.isLt
  simpa [State.reg, State.loadRegs] using this

theorem regsUpTo_length (s : State) (x : Reg) : (regsUpTo s x).length = x.val + 1 := by
  have := x.isLt
  simp [regsUpTo]

/-- Byte `k` of what `FX55` stores is `V[k]` (R195). -/
theorem regsUpTo_getElem (s : State) (x q : Reg) (h : q.val < (regsUpTo s x).length) :
    (regsUpTo s x)[q.val] = s.reg q := by
  simp [regsUpTo, State.reg]

/-! ### skips -/

@[simp] theorem State.skipIf_v (s : State) (c : Bool) : (s.skipIf c).v = s.v := by cases c <;> rfl
@[simp] theorem State.skipIf_i (s : State) (c : Bool) : (s.skipIf c).i = s.i := by cases c <;> rfl
@[simp] theorem State.skipIf_mem (s : State) (c : Bool) : (s.skipIf c).mem = s.mem := by cases c <;> rfl
@[simp] theorem State.skipIf_stack (s : State) (c : Bool) : (s.skipIf c).stack = s.stack := by cases c <;> rfl
@[simp] theorem State.skipIf_fb (s : State) (c : Bool) : (s.skipIf c).fb = s.fb := by cases c <;> rfl
@[simp] theorem State.skipIf_dt (s : State) (c : Bool) : (s.skipIf c).dt = s.dt := by cases c <;> rfl
@[simp] theorem State.skipIf_st (s : State) (c : Bool) : (s.skipIf c).st = s.st := by cases c <;> rfl
@[simp] theorem State.skipIf_keys (s : State) (c : Bool) : (s.skipIf c).keys = s.keys := by cases c <;> rfl
@[simp] theorem State.skipIf_fault (s : State) (c : Bool) : (s.skipIf c).fault = s.fault := by cases c <;> rfl
@[simp] theorem State.skipIf_font (s : State) (c : Bool) : (s.skipIf c).font = s.font := by cases c <;> rfl
@[simp] theorem State.skipIf_rndCount (s : State) (c : Bool) : (s.skipIf c).rndCount = s.rndCount := by cases c <;> rfl
@[simp] theorem State.skipIf_reports (s : State) (c : Bool) : (s.skipIf c).reports = s.reports := by cases c <;> rfl
@[simp] theorem State.skipIf_pc (s : State) (c : Bool) :
    (s.skipIf c).pc = if c then s.pc + 2 else s.pc := by cases c <;> rfl
@[simp] theorem State.skipIf_reg (s : State) (c : Bool) (q : Reg) : (s.skipIf c).reg q = s.reg q := by cases c <;> rfl
@[simp] theorem State.skipIf_halted (s : State) (c : Bool) : (s.skipIf c).halted = s.halted := by cases c <;> rfl
@[simp] theorem State.setFault_halted (s : State) (f : Option Fault) : (s.setFault f).halted = f.isSome := rfl

theorem State.halted_eq_false {s : State} : s.halted = false ↔ s.fault = none := by
  cases h : s.fault <;> simp [State.halted, h]

end Sys2Proof.Machine
end

