-- ==== Sys2Proof/Laws/Memory.lean ====
section
/-! SUPPORT. The laws of memory: read after write, the canonical form, and what each access can answer. -/

namespace Sys2Proof.Machine

theorem memGet_filter_ne (m : Memory) (a a' : Nat) (h : a' ≠ a) :
    memGet (m.filter fun c => c.1 != a) a' = memGet m a' := by
  induction m with
  | nil => rfl
  | cons c m ih =>
    obtain ⟨k, b⟩ := c
    by_cases hk : k = a
    · subst hk
      simp [memGet, ih, Ne.symm h]
    · simp [memGet, hk, ih]

theorem memGet_filter_eq (m : Memory) (a : Nat) : memGet (m.filter fun c => c.1 != a) a = resetByte a := by
  induction m with
  | nil => rfl
  | cons c m ih =>
    obtain ⟨k, b⟩ := c
    by_cases hk : k = a
    · simp [hk, ih]
    · simp [memGet, hk, ih]

theorem memGet_memInsert_ne (m : Memory) (a a' : Nat) (b : Byte) (h : a' ≠ a) :
    memGet (memInsert a b m) a' = memGet m a' := by
  induction m with
  | nil => simp [memInsert, memGet, Ne.symm h]
  | cons c m ih =>
    obtain ⟨k, b'⟩ := c
    by_cases hk : k < a
    · simp [memInsert, hk, memGet, ih]
    · simp [memInsert, hk, memGet, Ne.symm h]

theorem memGet_memInsert_eq (m : Memory) (a : Nat) (b : Byte) : memGet (memInsert a b m) a = b := by
  induction m with
  | nil => simp [memInsert, memGet]
  | cons c m ih =>
    obtain ⟨k, b'⟩ := c
    by_cases hk : k < a
    · have : k ≠ a := by omega
      simp [memInsert, hk, memGet, ih, this]
    · simp [memInsert, hk, memGet]

/-- A read after a write to the same address gives the byte written. -/
@[simp] theorem memGet_memSet_eq (m : Memory) (a : Nat) (b : Byte) : memGet (memSet m a b) a = b := by
  by_cases h : b = resetByte a
  · simp [memSet, h, memGet_filter_eq]
  · simp [memSet, h, memGet_memInsert_eq]

/-- A write leaves every other address alone. -/
theorem memGet_memSet_ne (m : Memory) (a a' : Nat) (b : Byte) (h : a' ≠ a) :
    memGet (memSet m a b) a' = memGet m a' := by
  by_cases hb : b = resetByte a
  · simp [memSet, hb, memGet_filter_ne m a a' h]
  · simp [memSet, hb, memGet_memInsert_ne _ a a' b h, memGet_filter_ne m a a' h]

theorem mem_memInsert (a : Nat) (b : Byte) (m : Memory) (c : Host.Cell) :
    c ∈ memInsert a b m ↔ c = (a, b) ∨ c ∈ m := by
  induction m with
  | nil => simp [memInsert]
  | cons d m ih =>
    by_cases hd : d.1 < a
    · simp only [memInsert, hd, if_true, List.mem_cons, ih]; tauto
    · simp [memInsert, hd]

theorem memInsert_rising (a : Nat) (b : Byte) : ∀ (m : Memory), m.Pairwise (fun c d => c.1 < d.1) →
    (∀ c ∈ m, c.1 ≠ a) → (memInsert a b m).Pairwise (fun c d => c.1 < d.1)
  | [], _, _ => by simp [memInsert]
  | c :: m, hp, hne => by
    rw [List.pairwise_cons] at hp
    have hca := hne c (by simp)
    by_cases hc : c.1 < a
    · simp only [memInsert, hc, if_true, List.pairwise_cons]
      refine ⟨fun d hd => ?_, memInsert_rising a b m hp.2 fun d hd => hne d (by simp [hd])⟩
      rcases (mem_memInsert a b m d).1 hd with rfl | hd
      · exact hc
      · exact hp.1 d hd
    · simp only [memInsert, hc, if_false, List.pairwise_cons]
      have hac : a < c.1 := by omega
      refine ⟨fun d hd => ?_, hp.1, hp.2⟩
      rcases List.mem_cons.1 hd with rfl | hd
      · exact hac
      · exact hac.trans (hp.1 d hd)

/-- A write to a valid address keeps the canonical form. -/
theorem memSet_wf {m : Memory} (h : Memory.wf m) {a : Nat} (ha : a < memSize) (b : Byte) :
    Memory.wf (memSet m a b) := by
  obtain ⟨hp, hc⟩ := h
  have hp' : (m.filter fun c => c.1 != a).Pairwise (fun c d => c.1 < d.1) := hp.filter _
  have hc' : ∀ c ∈ m.filter (fun c => c.1 != a), c.1 < memSize ∧ c.2 ≠ resetByte c.1 :=
    fun c h => hc c (List.mem_filter.1 h).1
  unfold memSet
  by_cases hb : b = resetByte a
  · rw [if_pos hb]
    exact ⟨hp', hc'⟩
  · rw [if_neg hb]
    refine ⟨memInsert_rising a b _ hp' fun c h => by simpa using (List.mem_filter.1 h).2, fun c h => ?_⟩
    rcases (mem_memInsert a b _ c).1 h with rfl | h
    · exact ⟨ha, hb⟩
    · exact hc' c h

theorem reset_memory_wf : Memory.wf State.reset.mem := ⟨List.Pairwise.nil, by simp [State.reset]⟩

/-- An address that no cell lists reads as its reset content. -/
theorem memGet_above (m : Memory) (a : Nat) (h : ∀ c ∈ m, c.1 ≠ a) : memGet m a = resetByte a := by
  induction m with
  | nil => rfl
  | cons c m ih =>
    have := h c (by simp)
    simp only [memGet, this, if_false]
    exact ih fun d hd => h d (by simp [hd])

/-! ### single accesses -/

/-- Everything a byte read can answer (R62). -/
theorem readByte_cases (m : Memory) (a : Addr) :
    (a.toNat < 0x1000 ∧ readByte m a = .ok (memGet m a.toNat)) ∨
    (0x1000 ≤ a.toNat ∧ readByte m a = .error (.memoryAddressFault a)) := by
  unfold readByte memSize
  by_cases h : a.toNat < 0x1000
  · exact .inl ⟨h, by simp [h]⟩
  · exact .inr ⟨by omega, by simp [h]⟩

theorem readByte_ok {m : Memory} {a : Addr} (h : a.toNat < 0x1000) : readByte m a = .ok (memGet m a.toNat) := by
  simp [readByte, memSize, h]

theorem readByte_invalid {m : Memory} {a : Addr} (h : 0x1000 ≤ a.toNat) :
    readByte m a = .error (.memoryAddressFault a) := by
  simp [readByte, memSize, Nat.not_lt.2 h]

/-- Two memories that hold the same bytes answer every read alike. -/
theorem readByte_congr {m m' : Memory} {a : Addr} (h : memGet m' a.toNat = memGet m a.toNat) :
    readByte m' a = readByte m a := by
  simp [readByte, h]

theorem writeByte_ok {m : Memory} {a : Addr} {b : Byte} (h : a.toNat < 0x1000) :
    writeByte m a b = .ok (memSet m a.toNat b) := by
  simp [writeByte, memSize, h]

theorem writeByte_invalid {m : Memory} {a : Addr} {b : Byte} (h : 0x1000 ≤ a.toNat) :
    writeByte m a b = .error (.memoryAddressFault a) := by
  simp [writeByte, memSize, Nat.not_lt.2 h]

/-! ### several accesses -/

theorem addr_toNat_add {a : Addr} {k : Nat} (h : a.toNat + k < 0x10000) : (a + BitVec.ofNat 16 k).toNat = a.toNat + k := by
  rw [BitVec.toNat_add, BitVec.toNat_ofNat]
  have : k < 2 ^ 16 := by omega
  rw [Nat.mod_eq_of_lt this, Nat.mod_eq_of_lt h]

theorem addr_toNat_succ {a : Addr} (h : a.toNat < 0x1000) : (a + 1).toNat = a.toNat + 1 :=
  addr_toNat_add (k := 1) (by omega)

/-- The bytes of memory from `a` upward. -/
def memBytes (m : Memory) (a : Nat) : Nat → List Byte
  | 0 => []
  | n + 1 => memGet m a :: memBytes m (a + 1) n

@[simp] theorem memBytes_length (m : Memory) (n : Nat) : ∀ a, (memBytes m a n).length = n := by
  induction n with
  | zero => intro a; rfl
  | succ n ih => intro a; simp [memBytes, ih]

theorem memBytes_getElem (m : Memory) (n : Nat) : ∀ (a k : Nat) (h : k < (memBytes m a n).length),
    (memBytes m a n)[k] = memGet m (a + k) := by
  induction n with
  | zero => intro a k h; simp at h
  | succ n ih =>
    intro a k h
    cases k with
    | zero => rfl
    | succ k =>
      simp only [memBytes, List.getElem_cons_succ]
      rw [ih]; congr 1; omega

/-- The first invalid address of an ascending access that starts at `a` (R197, R252). -/
def firstInvalid (a : Addr) : Addr := if 0x1000 ≤ a.toNat then a else 0x1000#16

/-- `n` reads that stay below 0x1000 answer the bytes there (R62, R65). -/
theorem readBytes_ok (m : Memory) (n : Nat) : ∀ (a : Addr), n = 0 ∨ a.toNat + n ≤ 0x1000 →
    readBytes m a n = .ok (memBytes m a.toNat n) := by
  induction n with
  | zero => intro a _; rfl
  | succ n ih =>
    intro a h
    have ha : a.toNat < 0x1000 := by omega
    have hs := addr_toNat_succ ha
    rw [readBytes, readByte_ok ha]
    simp only
    rw [ih (a + 1) (by omega), hs]
    rfl

/-- Reads that reach past 0xFFF raise the fault of the first invalid address (R66). -/
theorem readBytes_fault (m : Memory) (n : Nat) : ∀ (a : Addr), 0 < n → 0x1000 < a.toNat + n →
    readBytes m a n = .error (.memoryAddressFault (firstInvalid a)) := by
  induction n with
  | zero => intro a h; omega
  | succ n ih =>
    intro a _ h
    by_cases ha : a.toNat < 0x1000
    · have hs := addr_toNat_succ ha
      rw [readBytes, readByte_ok ha]
      simp only
      rw [ih (a + 1) (by omega) (by omega)]
      have : firstInvalid (a + 1) = firstInvalid a := by
        unfold firstInvalid
        by_cases h2 : 0x1000 ≤ (a + 1).toNat
        · rw [if_pos h2, if_neg (by omega)]
          apply BitVec.eq_of_toNat_eq
          have : (0x1000#16 : Addr).toNat = 0x1000 := rfl
          omega
        · rw [if_neg h2, if_neg (by omega)]
      rw [this]
    · rw [readBytes, readByte_invalid (by omega)]
      simp only
      rw [firstInvalid, if_pos (by omega)]

/-- The memory after bytes are written from `a` upward. -/
def memSetMany (m : Memory) (a : Nat) : List Byte → Memory
  | [] => m
  | b :: bs => memSetMany (memSet m a b) (a + 1) bs

/-- Writes that stay below 0x1000 all happen (R63, R65). -/
theorem writeBytes_ok (bs : List Byte) : ∀ (m : Memory) (a : Addr), bs = [] ∨ a.toNat + bs.length ≤ 0x1000 →
    writeBytes m a bs = .ok (memSetMany m a.toNat bs) := by
  induction bs with
  | nil => intro m a _; rfl
  | cons b bs ih =>
    intro m a h
    have h' : a.toNat + bs.length + 1 ≤ 0x1000 := by
      rcases h with h | h
      · cases h
      · simpa [Nat.add_assoc] using h
    have ha : a.toNat < 0x1000 := by omega
    have hs := addr_toNat_succ ha
    rw [writeBytes, writeByte_ok ha]
    simp only
    rw [ih _ (a + 1) (by omega), hs]
    rfl

/-- Writes that reach past 0xFFF raise the fault of the first invalid address (R66). -/
theorem writeBytes_fault (bs : List Byte) : ∀ (m : Memory) (a : Addr), bs ≠ [] → 0x1000 < a.toNat + bs.length →
    writeBytes m a bs = .error (.memoryAddressFault (firstInvalid a)) := by
  induction bs with
  | nil => intro m a h; exact absurd rfl h
  | cons b bs ih =>
    intro m a _ h
    simp only [List.length_cons] at h
    by_cases ha : a.toNat < 0x1000
    · have hs := addr_toNat_succ ha
      have hne : bs ≠ [] := by
        rintro rfl
        simp at h; omega
      rw [writeBytes, writeByte_ok ha]
      simp only
      rw [ih _ (a + 1) hne (by omega)]
      have : firstInvalid (a + 1) = firstInvalid a := by
        unfold firstInvalid
        by_cases h2 : 0x1000 ≤ (a + 1).toNat
        · rw [if_pos h2, if_neg (by omega)]
          apply BitVec.eq_of_toNat_eq
          have : (0x1000#16 : Addr).toNat = 0x1000 := rfl
          omega
        · rw [if_neg h2, if_neg (by omega)]
      rw [this]
    · rw [writeBytes, writeByte_invalid (by omega)]
      simp only
      rw [firstInvalid, if_pos (by omega)]

/-- What memory holds after bytes are written from `a` upward: those bytes there, the old ones elsewhere. -/
theorem memGet_memSetMany (bs : List Byte) : ∀ (m : Memory) (a k : Nat),
    memGet (memSetMany m a bs) k = if h : a ≤ k ∧ k < a + bs.length then bs[k - a]'(by omega) else memGet m k := by
  induction bs with
  | nil =>
    intro m a k
    have : ¬(a ≤ k ∧ k < a + ([] : List Byte).length) := by simp
    rw [dif_neg this]; rfl
  | cons b bs ih =>
    intro m a k
    rw [memSetMany, ih]
    by_cases h1 : a + 1 ≤ k ∧ k < a + 1 + bs.length
    · have h2 : a ≤ k ∧ k < a + (b :: bs).length := by simp; omega
      have h3 : k - a = (k - (a + 1)) + 1 := by omega
      rw [dif_pos h1, dif_pos h2]
      simp [h3]
    · rw [dif_neg h1]
      by_cases h4 : k = a
      · subst h4
        have h2 : k ≤ k ∧ k < k + (b :: bs).length := by simp
        rw [dif_pos h2]
        simp
      · have h2 : ¬(a ≤ k ∧ k < a + (b :: bs).length) := by simp; omega
        rw [dif_neg h2, memGet_memSet_ne _ _ _ _ h4]

theorem memSetMany_wf (bs : List Byte) : ∀ {m : Memory} {a : Nat}, Memory.wf m → a + bs.length ≤ 0x1000 →
    Memory.wf (memSetMany m a bs) := by
  induction bs with
  | nil => intro m a h _; exact h
  | cons b bs ih =>
    intro m a h ha
    simp only [List.length_cons] at ha
    exact ih (memSet_wf h (by unfold memSize; omega) b) (by omega)

/-- Every write that answers a memory keeps the canonical form. -/
theorem writeBytes_wf {m m' : Memory} {a : Addr} {bs : List Byte} (h : Memory.wf m)
    (hw : writeBytes m a bs = .ok m') : Memory.wf m' := by
  by_cases hb : bs = []
  · subst hb
    simp only [writeBytes, Except.ok.injEq] at hw
    exact hw ▸ h
  · by_cases ha : a.toNat + bs.length ≤ 0x1000
    · rw [writeBytes_ok bs m a (.inr ha)] at hw
      simp only [Except.ok.injEq] at hw
      exact hw ▸ memSetMany_wf bs h ha
    · rw [writeBytes_fault bs m a hb (by omega)] at hw
      cases hw

/-! ### instruction fetch -/

/-- A fetch from 0xFFE or below answers the big-endian word there (R64, R68). -/
theorem readWord_ok {m : Memory} {a : Addr} (h : a.toNat ≤ 0xFFE) :
    readWord m a = .ok (wordOfBytes (memGet m a.toNat) (memGet m (a.toNat + 1))) := by
  have hs := addr_toNat_succ (a := a) (by omega)
  rw [readWord, readByte_ok (by omega)]
  simp only
  rw [readByte_ok (by omega), hs]

/-- A fetch from above 0xFFE raises the fault of the first invalid address (R64). -/
theorem readWord_fault {m : Memory} {a : Addr} (h : 0xFFE < a.toNat) :
    readWord m a = .error (.memoryAddressFault (firstInvalid a)) := by
  by_cases ha : a.toNat < 0x1000
  · have hs := addr_toNat_succ ha
    rw [readWord, readByte_ok ha]
    simp only
    rw [readByte_invalid (by omega)]
    simp only
    rw [firstInvalid, if_neg (by omega)]
    congr 2
    apply BitVec.eq_of_toNat_eq
    have : (0x1000#16 : Addr).toNat = 0x1000 := rfl
    omega
  · rw [readWord, readByte_invalid (by omega)]
    simp only
    rw [firstInvalid, if_pos (by omega)]

/-! ### storing byte strings (the host's load) -/

/-- A store of a byte string within memory changes memory alone. -/
theorem State.storeAt_eq (bs : List Byte) : ∀ (s : State) (a : Nat), a + bs.length ≤ 0x1000 →
    s.storeAt a bs = s.setMem (memSetMany s.mem a bs) := by
  induction bs with
  | nil => intro s a _; rfl
  | cons b bs ih =>
    intro s a h
    simp only [List.length_cons] at h
    have : a < memSize := by unfold memSize; omega
    rw [State.storeAt, if_pos this, ih _ _ (by omega)]
    rfl

end Sys2Proof.Machine
end

