-- ==== Sys2Proof/Laws/StepCycle.lean ====
section
/-! SUPPORT. What taking a fault, a fetch, a meaning and a step can answer, each said once. -/

namespace Sys2Proof.Machine

@[simp] theorem takeFault_eq (f : Fault) (s : State) : takeFault f s = .next (s.setFault (some f)) := rfl

/-- Everything `orFault` can answer (R254). -/
theorem orFault_cases {α : Type} (r : Except Fault α) (s : State) (k : α → State) :
    (∃ f, r = .error f ∧ orFault r s k = .next (s.setFault (some f))) ∨
    (∃ a, r = .ok a ∧ orFault r s k = .next (k a)) := by
  cases r with
  | error f => exact .inl ⟨f, rfl, rfl⟩
  | ok a => exact .inr ⟨a, rfl, rfl⟩

@[simp] theorem endStep_next (t : State) : endStep (.next t) = .next (if t.halted then t else t.tickTimers) := rfl

theorem fetch_ok {s : State} (h : s.pc.toNat ≤ 0xFFE) :
    fetch s = .ok (wordOfBytes (memGet s.mem s.pc.toNat) (memGet s.mem (s.pc.toNat + 1))) := readWord_ok h

theorem fetch_fault {s : State} (h : 0xFFE < s.pc.toNat) :
    fetch s = .error (.memoryAddressFault (firstInvalid s.pc)) := readWord_fault h

/-- A fetch answers a word exactly when `PC` is at most 0xFFE (R64, R121). -/
theorem fetch_ok_iff (s : State) : (∃ w, fetch s = .ok w) ↔ s.pc.toNat ≤ 0xFFE := by
  constructor
  · rintro ⟨w, h⟩
    by_contra hp
    rw [fetch_fault (by omega)] at h
    cases h
  · exact fun h => ⟨_, fetch_ok h⟩

/-- A meaning either takes a fault in the state it was given, or goes on with the latch as it was. -/
theorem exec_cases (i : Instr) (s : State) :
    (∃ f, exec i s = .next (s.setFault (some f))) ∨ (∃ t, exec i s = .next t ∧ t.fault = s.fault) := by
  cases i
  case ret =>
    simp only [exec, execRet]
    cases s.stack.getLast? with
    | none => exact .inl ⟨_, rfl⟩
    | some a => exact .inr ⟨_, rfl, rfl⟩
  case ldXK x =>
    simp only [exec, execLdXK]
    cases lowestKey s with
    | none => exact .inr ⟨_, rfl, rfl⟩
    | some k => exact .inr ⟨_, rfl, rfl⟩
  case ldBX x =>
    rcases orFault_cases (writeBytes s.mem (effAddr s 0) (decimalDigits (s.reg x))) s fun m => s.advance.setMem m with
      ⟨f, _, h⟩ | ⟨m, _, h⟩
    · exact .inl ⟨f, h⟩
    · exact .inr ⟨_, h, rfl⟩
  case stRegs x =>
    rcases orFault_cases (writeBytes s.mem (effAddr s 0) (regsUpTo s x)) s fun m => s.advance.setMem m with
      ⟨f, _, h⟩ | ⟨m, _, h⟩
    · exact .inl ⟨f, h⟩
    · exact .inr ⟨_, h, rfl⟩
  case ldRegs x =>
    rcases orFault_cases (readBytes s.mem (effAddr s 0) (x.val + 1)) s fun bs => s.advance.loadRegs bs with
      ⟨f, _, h⟩ | ⟨m, _, h⟩
    · exact .inl ⟨f, h⟩
    · exact .inr ⟨_, h, rfl⟩
  case drw x y n =>
    simp only [exec, execDrw]
    cases readBytes s.mem (effAddr s 0) n.toNat with
    | error f => exact .inl ⟨f, rfl⟩
    | ok rows => exact .inr ⟨_, rfl, rfl⟩
  case seXNN x nn => exact .inr ⟨_, rfl, by simp⟩
  case sneXNN x nn => exact .inr ⟨_, rfl, by simp⟩
  case seXY x y => exact .inr ⟨_, rfl, by simp⟩
  case sneXY x y => exact .inr ⟨_, rfl, by simp⟩
  case skp x => exact .inr ⟨_, rfl, by simp⟩
  case sknp x => exact .inr ⟨_, rfl, by simp⟩
  all_goals exact .inr ⟨_, rfl, rfl⟩

/-- Everything a step can answer (R126): nothing while halted; the fault of the fetch, or of the instruction, in the
state before; or the instruction's own effect and then the tick. -/
theorem step_cases (s : State) :
    (s.halted = true ∧ step s = .next s) ∨
    (s.halted = false ∧ ∃ f, fetch s = .error f ∧ step s = .next (s.setFault (some f))) ∨
    (s.halted = false ∧ ∃ w f, fetch s = .ok w ∧ exec (decodeWord w) s = .next (s.setFault (some f)) ∧
      step s = .next (s.setFault (some f))) ∨
    (s.halted = false ∧ ∃ w t, fetch s = .ok w ∧ exec (decodeWord w) s = .next t ∧ t.fault = none ∧
      step s = .next t.tickTimers) := by
  cases hh : s.halted with
  | true => exact .inl ⟨rfl, by simp [step, stepCycle, hh]⟩
  | false =>
    refine .inr ?_
    cases hf : fetch s with
    | error f => exact .inl ⟨rfl, f, rfl, by simp [step, stepCycle, hh, hf]⟩
    | ok w =>
      refine .inr ?_
      rcases exec_cases (decodeWord w) s with ⟨f, he⟩ | ⟨t, he, ht⟩
      · exact .inl ⟨rfl, w, f, rfl, he, by simp [step, stepCycle, hh, hf, he]⟩
      · have htn : t.fault = none := ht.trans (State.halted_eq_false.1 hh)
        have hth : t.halted = false := State.halted_eq_false.2 htn
        exact .inr ⟨rfl, w, t, rfl, he, htn, by simp [step, stepCycle, hh, hf, he, hth]⟩

/-- The one addressing mode without an offset is `I` itself (R65). -/
@[simp] theorem effAddr_zero (s : State) : effAddr s 0 = s.i := by simp [effAddr]

theorem effAddr_toNat {s : State} {k : Nat} (h : s.i.toNat + k < 0x10000) : (effAddr s k).toNat = s.i.toNat + k :=
  addr_toNat_add h

/-- Everything a store at `I` can answer (R66): the bytes stored, or the fault of the first invalid address. -/
theorem storeAtI_ok {bs : List Byte} {s : State} (h : s.i.toNat + bs.length ≤ 0x1000) :
    storeAtI bs s = .next (s.advance.setMem (memSetMany s.mem s.i.toNat bs)) := by
  rw [storeAtI, effAddr_zero, writeBytes_ok bs s.mem s.i (.inr h)]
  rfl

theorem storeAtI_fault {bs : List Byte} {s : State} (hb : bs ≠ []) (h : 0x1000 < s.i.toNat + bs.length) :
    storeAtI bs s = .next (s.setFault (some (.memoryAddressFault (firstInvalid s.i)))) := by
  rw [storeAtI, effAddr_zero, writeBytes_fault bs s.mem s.i hb h]
  rfl

@[simp] theorem decimalDigits_length (b : Byte) : (decimalDigits b).length = 3 := rfl

/-- Everything the tick does to a count: one less, not below zero (R34). -/
theorem tick_toNat (b : Byte) : (tick b).toNat = b.toNat - 1 := by
  unfold tick
  by_cases h : b = 0
  · subst h; rfl
  · have hb : b.toNat ≠ 0 := fun e => h (BitVec.eq_of_toNat_eq e)
    have hlt := b.isLt
    rw [if_neg h, BitVec.toNat_sub]
    have : (1 : Byte).toNat = 1 := rfl
    omega

end Sys2Proof.Machine
end

