-- ==== Sys2Proof/Laws/Faults.lean ====
section
/-! SUPPORT. When a meaning goes on and when it takes an address fault (60_exceptions.md R252). -/

namespace Sys2Proof.Machine

/-- The address an access that crosses the end of memory faults at, as a number. -/
theorem firstInvalid_toNat {a : Addr} (h : 0xFF1 ≤ a.toNat) : (firstInvalid a).toNat = max a.toNat 0x1000 := by
  have h1000 : (0x1000#16 : Addr).toNat = 0x1000 := rfl
  unfold firstInvalid
  split <;> omega

/-- A meaning whose accesses are all valid, and that is no return on an empty stack, goes on. -/
theorem exec_goes_on (i : Instr) (s : State) (h : ¬touchesInvalid i s) (hr : i = .ret → s.stack ≠ []) :
    ∃ t, exec i s = .next t ∧ t.fault = s.fault := by
  cases i
  case ret =>
    simp only [exec, execRet]
    cases hl : s.stack.getLast? with
    | none => exact absurd (List.getLast?_eq_none_iff.1 hl) (hr rfl)
    | some a => exact ⟨_, rfl, rfl⟩
  case ldXK x =>
    simp only [exec, execLdXK]
    cases lowestKey s <;> exact ⟨_, rfl, rfl⟩
  case ldBX x =>
    simp only [touchesInvalid] at h
    exact ⟨_, storeAtI_ok (by rw [decimalDigits_length]; omega), rfl⟩
  case stRegs x =>
    simp only [touchesInvalid] at h
    exact ⟨_, storeAtI_ok (by simp [regsUpTo]; omega), rfl⟩
  case ldRegs x =>
    simp only [touchesInvalid] at h
    simp only [exec, execLdRegs, effAddr_zero]
    rw [readBytes_ok _ _ _ (by omega)]
    exact ⟨_, rfl, rfl⟩
  case drw x y n =>
    simp only [touchesInvalid] at h
    simp only [exec, execDrw, effAddr_zero]
    rw [readBytes_ok _ _ _ (by omega)]
    exact ⟨_, rfl, rfl⟩
  all_goals exact ⟨_, rfl, by simp⟩

/-- A meaning that would touch an invalid address takes the fault of the first one, in the state it was given. -/
theorem exec_address_fault (i : Instr) (s : State) (h : touchesInvalid i s) : 0xFF1 ≤ s.i.toNat ∧
    exec i s = .next (s.setFault (some (.memoryAddressFault (firstInvalid s.i)))) := by
  cases i
  case ldBX x =>
    simp only [touchesInvalid] at h
    exact ⟨by omega, storeAtI_fault (by simp [decimalDigits]) (by rw [decimalDigits_length]; omega)⟩
  case stRegs x =>
    simp only [touchesInvalid] at h
    exact ⟨by omega, storeAtI_fault (by simp [regsUpTo]) (by simp [regsUpTo]; omega)⟩
  case ldRegs x =>
    simp only [touchesInvalid] at h
    simp only [exec, execLdRegs, effAddr_zero]
    rw [readBytes_fault _ _ _ (by omega) (by omega)]
    exact ⟨by omega, rfl⟩
  case drw x y n =>
    simp only [touchesInvalid] at h
    have := n.isLt
    simp only [exec, execDrw, effAddr_zero]
    rw [readBytes_fault _ _ _ (by omega) (by omega)]
    exact ⟨by omega, rfl⟩
  all_goals simp [touchesInvalid] at h

end Sys2Proof.Machine
end

