-- ==== Sys2Proof/Laws/Grid.lean ====
section
/-! SUPPORT. The laws of the framebuffer and of the draw (44_display.md R210 to R214). -/

namespace Sys2Proof.Machine

@[simp] theorem px_off_grid (g : Grid) {x y : Nat} (h : ¬(x < 64 ∧ y < 32)) : px g x y = false := by
  rw [px, dif_neg h]

@[simp] theorem px_clearGrid (x y : Nat) : px clearGrid x y = false := by
  by_cases h : x < 64 ∧ y < 32
  · simp [px, clearGrid]
  · simp [h]

/-- A pixel write on the grid sets that pixel and no other. -/
theorem px_setPx (g : Grid) {x y : Nat} (hx : x < 64) (hy : y < 32) (b : Bool) (x' y' : Nat) :
    px (setPx g x y b) x' y' = if x' = x ∧ y' = y then b else px g x' y' := by
  have h : x < 64 ∧ y < 32 := ⟨hx, hy⟩
  by_cases h' : x' < 64 ∧ y' < 32
  · simp only [setPx, dif_pos h, px, dif_pos h']
    by_cases ey : y' = y
    · subst ey
      by_cases ex : x' = x
      · subst ex; simp
      · simp [ex, Ne.symm ex]
    · simp [ey, Ne.symm ey]
  · rw [px_off_grid _ h', px_off_grid _ h']
    split
    · rename_i e; exact absurd ⟨e.1 ▸ hx, e.2 ▸ hy⟩ h'
    · rfl

/-- Two grids with the same pixels are the same grid. -/
theorem grid_ext {g g' : Grid} (h : ∀ x y, x < 64 → y < 32 → px g x y = px g' x y) : g = g' := by
  apply Vector.ext
  intro y hy
  apply Vector.ext
  intro x hx
  have := h x y hx hy
  simpa [px, hx, hy] using this

/-- A sprite pixel is XORed into the pixel it is aimed at; off the grid it does nothing. -/
theorem drawPixel_px (ox oy i : Nat) (b : Byte) (acc : Grid × Bool) (j x y : Nat) :
    px (drawPixel ox oy i b acc j).1 x y =
      (px acc.1 x y ^^ (decide (x < 64 ∧ y < 32) && decide (x = ox + j ∧ y = oy + i) && spriteBit b j)) := by
  unfold drawPixel
  by_cases hit : (spriteBit b j && decide (ox + j < 64) && decide (oy + i < 32)) = true
  · rw [if_pos hit]
    simp only [Bool.and_eq_true, decide_eq_true_eq] at hit
    obtain ⟨⟨hb, hx⟩, hy⟩ := hit
    by_cases hp : px acc.1 (ox + j) (oy + i) = true
    · rw [if_pos hp, px_setPx _ hx hy]
      by_cases e : x = ox + j ∧ y = oy + i
      · obtain ⟨rfl, rfl⟩ := e; simp [hx, hy, hb, hp]
      · simp [e]
    · rw [if_neg hp, px_setPx _ hx hy]
      by_cases e : x = ox + j ∧ y = oy + i
      · obtain ⟨rfl, rfl⟩ := e; simp [hx, hy, hb, hp]
      · simp [e]
  · rw [if_neg hit]
    simp only [Bool.and_eq_true, decide_eq_true_eq] at hit
    by_cases e : x = ox + j ∧ y = oy + i
    · obtain ⟨rfl, rfl⟩ := e
      by_cases h : ox + j < 64 ∧ oy + i < 32
      · have : spriteBit b j = false := by
          by_contra hb
          exact hit ⟨⟨by simpa using hb, h.1⟩, h.2⟩
        simp [this]
      · simp [h]
    · simp [e]

/-- A collision is recorded exactly when a sprite bit meets a lit pixel on the grid. -/
theorem drawPixel_collision (ox oy i : Nat) (b : Byte) (acc : Grid × Bool) (j : Nat) :
    (drawPixel ox oy i b acc j).2 = (acc.2 || (spriteBit b j && px acc.1 (ox + j) (oy + i))) := by
  unfold drawPixel
  by_cases h : ox + j < 64 ∧ oy + i < 32
  · by_cases hb : spriteBit b j = true
    · by_cases hp : px acc.1 (ox + j) (oy + i) = true
      · simp [h, hb, hp]
      · simp [h, hb, hp]
    · simp [hb]
  · rw [px_off_grid _ h]
    have : ¬((spriteBit b j && decide (ox + j < 64) && decide (oy + i < 32)) = true) := by
      simp only [Bool.and_eq_true, decide_eq_true_eq]
      exact fun e => h ⟨e.1.2, e.2⟩
    simp [this]

/-- Sprite pixels of one row, at distinct columns. -/
theorem drawPixels_px (ox oy i : Nat) (b : Byte) (js : List Nat) : ∀ (acc : Grid × Bool), js.Nodup → ∀ x y,
    px (js.foldl (drawPixel ox oy i b) acc).1 x y =
      (px acc.1 x y ^^ (decide (x < 64 ∧ y < 32) && decide (y = oy + i) &&
        js.any fun j => decide (x = ox + j) && spriteBit b j)) := by
  induction js with
  | nil => intro acc _ x y; simp
  | cons j js ih =>
    intro acc hn x y
    rw [List.nodup_cons] at hn
    rw [List.foldl_cons, ih _ hn.2, drawPixel_px, List.any_cons]
    by_cases hg : x < 64 ∧ y < 32
    · by_cases hy : y = oy + i
      · by_cases hx : x = ox + j
        · have : (js.any fun k => decide (x = ox + k) && spriteBit b k) = false := by
            rw [List.any_eq_false]
            intro k hk e
            simp only [Bool.and_eq_true, decide_eq_true_eq] at e
            have : k = j := by omega
            exact hn.1 (this ▸ hk)
          rw [this, Bool.and_false, Bool.xor_false, Bool.or_false]
          simp [hx, hy]
        · simp [hg, hy, hx]
      · simp [hy]
    · simp [hg]

theorem drawPixels_collision (ox oy i : Nat) (b : Byte) (js : List Nat) : ∀ (acc : Grid × Bool), js.Nodup →
    (js.foldl (drawPixel ox oy i b) acc).2 =
      (acc.2 || js.any fun j => spriteBit b j && px acc.1 (ox + j) (oy + i)) := by
  induction js with
  | nil => intro acc _; simp
  | cons j js ih =>
    intro acc hn
    rw [List.nodup_cons] at hn
    rw [List.foldl_cons, ih _ hn.2, drawPixel_collision, List.any_cons, Bool.or_assoc]
    congr 2
    apply Bool.eq_iff_iff.2
    simp only [List.any_eq_true, Bool.and_eq_true]
    have hne : ∀ k ∈ js, px (drawPixel ox oy i b acc j).1 (ox + k) (oy + i) = px acc.1 (ox + k) (oy + i) := by
      intro k hk
      have : ¬(ox + k = ox + j ∧ oy + i = oy + i) := fun e => hn.1 ((by omega : k = j) ▸ hk)
      rw [drawPixel_px, decide_eq_false this]; simp
    constructor
    · rintro ⟨k, hk, hb, hp⟩; exact ⟨k, hk, hb, (hne k hk) ▸ hp⟩
    · rintro ⟨k, hk, hb, hp⟩; exact ⟨k, hk, hb, (hne k hk).symm ▸ hp⟩

theorem any_column (ox x : Nat) (b : Byte) :
    ((List.range 8).any fun j => decide (x = ox + j) && spriteBit b j) =
      (decide (ox ≤ x) && spriteBit b (x - ox)) := by
  apply Bool.eq_iff_iff.2
  simp only [List.any_eq_true, Bool.and_eq_true, decide_eq_true_eq, List.mem_range]
  constructor
  · rintro ⟨j, _, rfl, hb⟩; exact ⟨by omega, by simpa using hb⟩
  · rintro ⟨h, hb⟩
    refine ⟨x - ox, ?_, by omega, hb⟩
    simp only [spriteBit, Bool.and_eq_true, decide_eq_true_eq] at hb
    exact hb.1

theorem drawRow_px (ox oy i : Nat) (b : Byte) (acc : Grid × Bool) (x y : Nat) :
    px (drawRow ox oy i b acc).1 x y =
      (px acc.1 x y ^^ (decide (x < 64 ∧ y < 32) && decide (y = oy + i) && (decide (ox ≤ x) && spriteBit b (x - ox)))) := by
  rw [drawRow, drawPixels_px _ _ _ _ _ _ List.nodup_range, any_column]

theorem drawRow_collision (ox oy i : Nat) (b : Byte) (acc : Grid × Bool) :
    (drawRow ox oy i b acc).2 = true ↔
      acc.2 = true ∨ ∃ x, ox ≤ x ∧ spriteBit b (x - ox) = true ∧ px acc.1 x (oy + i) = true := by
  rw [drawRow, drawPixels_collision _ _ _ _ _ _ List.nodup_range]
  simp only [Bool.or_eq_true, List.any_eq_true, Bool.and_eq_true, List.mem_range]
  constructor
  · rintro (h | ⟨j, _, hb, hp⟩)
    · exact .inl h
    · exact .inr ⟨ox + j, by omega, by simpa using hb, hp⟩
  · rintro (h | ⟨x, hx, hb, hp⟩)
    · exact .inl h
    · refine .inr ⟨x - ox, ?_, hb, ?_⟩
      · simp only [spriteBit, Bool.and_eq_true, decide_eq_true_eq] at hb
        exact hb.1
      · rw [show ox + (x - ox) = x by omega]; exact hp

@[simp] theorem spriteBit_zero (j : Nat) : spriteBit 0#8 j = false := by simp [spriteBit]

theorem aimedBit_nil (ox oy x y : Nat) : aimedBit ox oy [] x y = false := by simp [aimedBit]

theorem aimedBit_cons (ox oy : Nat) (b : Byte) (bs : List Byte) (x y : Nat) :
    aimedBit ox oy (b :: bs) x y =
      ((decide (y = oy) && (decide (ox ≤ x) && spriteBit b (x - ox))) || aimedBit ox (oy + 1) bs x y) := by
  unfold aimedBit
  by_cases h : y = oy
  · subst h
    simp
  · by_cases h2 : oy ≤ y
    · have h3 : oy + 1 ≤ y := by omega
      have h4 : y - oy = (y - (oy + 1)) + 1 := by omega
      simp [h, h2, h3, h4]
    · have h3 : ¬oy + 1 ≤ y := by omega
      simp [h, h2, h3]

/-- Every pixel after a draw: the old one XOR the sprite bit aimed at it (R214). -/
theorem drawRows_px (ox oy : Nat) (rows : List Byte) : ∀ (i : Nat) (acc : Grid × Bool) (x y : Nat),
    px (drawRows ox oy i rows acc).1 x y =
      (px acc.1 x y ^^ (decide (x < 64 ∧ y < 32) && aimedBit ox (oy + i) rows x y)) := by
  induction rows with
  | nil => intro i acc x y; simp [drawRows, aimedBit_nil]
  | cons b bs ih =>
    intro i acc x y
    rw [drawRows, ih, drawRow_px, aimedBit_cons, Nat.add_assoc]
    by_cases hy : y = oy + i
    · have : aimedBit ox (oy + (i + 1)) bs x y = false := by
        unfold aimedBit
        have : ¬oy + (i + 1) ≤ y := by omega
        simp [this]
      rw [this]; simp [Bool.and_assoc]
    · simp [hy]

/-- A draw collides exactly when some sprite bit is aimed at a pixel that was lit (R213, R214). -/
theorem drawRows_collision (ox oy : Nat) (rows : List Byte) : ∀ (i : Nat) (acc : Grid × Bool),
    (drawRows ox oy i rows acc).2 = true ↔
      acc.2 = true ∨ ∃ x y, aimedBit ox (oy + i) rows x y = true ∧ px acc.1 x y = true := by
  induction rows with
  | nil => intro i acc; simp [drawRows, aimedBit_nil]
  | cons b bs ih =>
    intro i acc
    have later : ∀ x y, aimedBit ox (oy + (i + 1)) bs x y = true →
        px (drawRow ox oy i b acc).1 x y = px acc.1 x y := by
      intro x y h
      have : ¬y = oy + i := by
        simp only [aimedBit, Bool.and_eq_true, decide_eq_true_eq] at h
        omega
      rw [drawRow_px]; simp [this]
    rw [drawRows, ih, drawRow_collision]
    constructor
    · rintro ((h | ⟨x, hx, hb, hp⟩) | ⟨x, y, ha, hp⟩)
      · exact .inl h
      · exact .inr ⟨x, oy + i, by rw [aimedBit_cons]; simp [hx, hb], hp⟩
      · exact .inr ⟨x, y, by rw [aimedBit_cons, Nat.add_assoc]; simp [ha], (later x y ha) ▸ hp⟩
    · rintro (h | ⟨x, y, ha, hp⟩)
      · exact .inl (.inl h)
      · rw [aimedBit_cons] at ha
        simp only [Bool.or_eq_true, Bool.and_eq_true, decide_eq_true_eq] at ha
        rcases ha with ⟨rfl, hx, hb⟩ | ha
        · exact .inl (.inr ⟨x, hx, hb, hp⟩)
        · have ha' : aimedBit ox (oy + (i + 1)) bs x y = true := ha
          exact .inr ⟨x, y, ha', (later x y ha').symm ▸ hp⟩

end Sys2Proof.Machine
end

