-- ==== Sys2Proof/Laws/HostMoves.lean ====
section
/-! SUPPORT. What each host move can answer (60_exceptions.md R262 to R265). -/

namespace Sys2Proof.Machine

/-- Everything a load can answer (R263). -/
theorem loadProgram_cases (bytes : List Byte) (s : State) :
    (bytes.length ≤ 3584 ∧ loadProgram bytes s = .ok (s.setMem (memSetMany s.mem 0x200 bytes))) ∨
    (3584 < bytes.length ∧ loadProgram bytes s = .error .programTooLarge) := by
  by_cases h : bytes.length ≤ 3584
  · have hs := State.storeAt_eq bytes s 0x200 (by omega)
    exact .inl ⟨h, by simp [loadProgram, progMax, progBase, h, hs]⟩
  · exact .inr ⟨by omega, by simp [loadProgram, progMax, h]⟩

/-- Everything a key move can answer (R264, R265). -/
theorem setKey_cases (key : Nat) (down : Bool) (s : State) :
    (∃ h : key < 16, setKey key down s = .ok (s.setKeys (s.keys.set key down h))) ∨
    (16 ≤ key ∧ setKey key down s = .error .invalidKeyIndex) := by
  by_cases h : key < 16
  · exact .inl ⟨h, by simp [setKey, h]⟩
  · exact .inr ⟨by omega, by simp [setKey, h]⟩

/-- A word placed where the next fetch reads it is the word that is fetched (R64, R68). -/
theorem fetch_placeWord {s : State} (h : s.pc.toNat ≤ 0xFFE) (w : Word) :
    fetch (s.placeWord w) = .ok (wordOfBytes (w.extractLsb' 8 8) (w.extractLsb' 0 8)) := by
  have hs := State.storeAt_eq (bytesOfWord w) (s.setFault none) s.pc.toNat (by simp [bytesOfWord]; omega)
  have hm : (s.placeWord w).mem = memSetMany s.mem s.pc.toNat (bytesOfWord w) := by
    rw [State.placeWord, hs]; rfl
  have hp : (s.placeWord w).pc = s.pc := by rw [State.placeWord, hs]; rfl
  rw [fetch, hp, readWord_ok h, hm, memGet_memSetMany, memGet_memSetMany]
  simp [bytesOfWord]

end Sys2Proof.Machine
end

