-- ==== Sys2Proof/Laws/Keypad.lean ====
section
/-! SUPPORT. What reading the keypad can answer (45_keypad_timers.md R230 to R236). -/

namespace Sys2Proof.Machine

/-- The level the whole byte names is down exactly when that key is one of the sixteen and is down (R232). -/
theorem keyLevel_iff (s : State) (b : Byte) : keyLevel s b = true ↔ keyIsDown s b.toNat := by
  unfold keyLevel keyIsDown
  split
  · rename_i h
    exact ⟨fun e => ⟨h, e⟩, fun ⟨_, e⟩ => e⟩
  · rename_i h
    simp [h]

theorem keyLevel_ofNat (s : State) {k : Nat} (hk : k < 16) :
    keyLevel s (BitVec.ofNat 8 k) = true ↔ keyIsDown s k := by
  have h : (BitVec.ofNat 8 k).toNat = k := by simp; omega
  rw [keyLevel_iff, h]

theorem lowestKey_none {s : State} (h : ∀ k, ¬keyIsDown s k) : lowestKey s = none := by
  unfold lowestKey
  rw [List.find?_eq_none]
  intro b hb
  simp only [List.mem_map, List.mem_range] at hb
  obtain ⟨k, hk, rfl⟩ := hb
  exact fun e => h k ((keyLevel_ofNat s hk).1 e)

theorem lowestKey_some {s : State} {k : Nat} (h : keyIsDown s k) (hj : ∀ j, j < k → ¬keyIsDown s j) :
    lowestKey s = some (BitVec.ofNat 8 k) := by
  have hk := h.1
  unfold lowestKey
  have hr : List.range 16 = List.range k ++ k :: List.range' (k + 1) (15 - k) := by
    interval_cases k <;> decide
  have hn : (List.map (BitVec.ofNat 8) (List.range k)).find? (keyLevel s) = none := by
    rw [List.find?_eq_none]
    intro b hb
    simp only [List.mem_map, List.mem_range] at hb
    obtain ⟨j, hj', rfl⟩ := hb
    exact fun e => hj j hj' ((keyLevel_ofNat s (by omega)).1 e)
  rw [hr, List.map_append, List.find?_append, hn]
  simp [(keyLevel_ofNat s hk).2 h]

end Sys2Proof.Machine
end

