-- ==== Sys2Proof/Laws/PerInstr.lean ====
section
/-! SUPPORT. Statements about every instruction as syntax, one lemma per constructor. -/

namespace Sys2Proof.Laws.SelectedByOwnRow

/-- The mask and the match of the instruction's row in spec/opcode_table.json (R96); the catch-all row has mask 0. -/
def tableRow : Instr → Word × Word
  | .cls => (0xFFFF#16, 0x00E0#16)
  | .ret => (0xFFFF#16, 0x00EE#16)
  | .jp _ => (0xF000#16, 0x1000#16)
  | .call _ => (0xF000#16, 0x2000#16)
  | .seXNN _ _ => (0xF000#16, 0x3000#16)
  | .sneXNN _ _ => (0xF000#16, 0x4000#16)
  | .seXY _ _ => (0xF00F#16, 0x5000#16)
  | .ldXNN _ _ => (0xF000#16, 0x6000#16)
  | .addXNN _ _ => (0xF000#16, 0x7000#16)
  | .ldXY _ _ => (0xF00F#16, 0x8000#16)
  | .orXY _ _ => (0xF00F#16, 0x8001#16)
  | .andXY _ _ => (0xF00F#16, 0x8002#16)
  | .xorXY _ _ => (0xF00F#16, 0x8003#16)
  | .addXY _ _ => (0xF00F#16, 0x8004#16)
  | .sub _ _ => (0xF00F#16, 0x8005#16)
  | .shr _ _ => (0xF00F#16, 0x8006#16)
  | .subn _ _ => (0xF00F#16, 0x8007#16)
  | .shl _ _ => (0xF00F#16, 0x800E#16)
  | .sneXY _ _ => (0xF00F#16, 0x9000#16)
  | .ldI _ => (0xF000#16, 0xA000#16)
  | .jpV0 _ => (0xF000#16, 0xB000#16)
  | .rnd _ _ => (0xF000#16, 0xC000#16)
  | .drw _ _ _ => (0xF000#16, 0xD000#16)
  | .skp _ => (0xF0FF#16, 0xE09E#16)
  | .sknp _ => (0xF0FF#16, 0xE0A1#16)
  | .ldXDt _ => (0xF0FF#16, 0xF007#16)
  | .ldXK _ => (0xF0FF#16, 0xF00A#16)
  | .ldDtX _ => (0xF0FF#16, 0xF015#16)
  | .ldStX _ => (0xF0FF#16, 0xF018#16)
  | .addIX _ => (0xF0FF#16, 0xF01E#16)
  | .ldFX _ => (0xF0FF#16, 0xF029#16)
  | .ldBX _ => (0xF0FF#16, 0xF033#16)
  | .stRegs _ => (0xF0FF#16, 0xF055#16)
  | .ldRegs _ => (0xF0FF#16, 0xF065#16)
  | .unimpl _ => (0x0000#16, 0x0000#16)

/-- The word of an instruction is selected by the instruction's own row of the table (R95, R96). -/
def Statement (i : Instr) : Prop := encode i &&& (tableRow i).1 = (tableRow i).2

theorem cls : Statement (.cls) := rfl
theorem ret : Statement (.ret) := rfl
theorem jp (nnn : Imm12) : Statement (.jp nnn) := encNNN_mask _ _
theorem call (nnn : Imm12) : Statement (.call nnn) := encNNN_mask _ _
theorem seXNN (x : Reg) (nn : Byte) : Statement (.seXNN x nn) := encXNN_mask _ _ _
theorem sneXNN (x : Reg) (nn : Byte) : Statement (.sneXNN x nn) := encXNN_mask _ _ _
theorem seXY (x : Reg) (y : Reg) : Statement (.seXY x y) := encXY_mask _ _ _ _
theorem ldXNN (x : Reg) (nn : Byte) : Statement (.ldXNN x nn) := encXNN_mask _ _ _
theorem addXNN (x : Reg) (nn : Byte) : Statement (.addXNN x nn) := encXNN_mask _ _ _
theorem ldXY (x : Reg) (y : Reg) : Statement (.ldXY x y) := encXY_mask _ _ _ _
theorem orXY (x : Reg) (y : Reg) : Statement (.orXY x y) := encXY_mask _ _ _ _
theorem andXY (x : Reg) (y : Reg) : Statement (.andXY x y) := encXY_mask _ _ _ _
theorem xorXY (x : Reg) (y : Reg) : Statement (.xorXY x y) := encXY_mask _ _ _ _
theorem addXY (x : Reg) (y : Reg) : Statement (.addXY x y) := encXY_mask _ _ _ _
theorem sub (x : Reg) (y : Reg) : Statement (.sub x y) := encXY_mask _ _ _ _
theorem shr (x : Reg) (y : Reg) : Statement (.shr x y) := encXY_mask _ _ _ _
theorem subn (x : Reg) (y : Reg) : Statement (.subn x y) := encXY_mask _ _ _ _
theorem shl (x : Reg) (y : Reg) : Statement (.shl x y) := encXY_mask _ _ _ _
theorem sneXY (x : Reg) (y : Reg) : Statement (.sneXY x y) := encXY_mask _ _ _ _
theorem ldI (nnn : Imm12) : Statement (.ldI nnn) := encNNN_mask _ _
theorem jpV0 (nnn : Imm12) : Statement (.jpV0 nnn) := encNNN_mask _ _
theorem rnd (x : Reg) (nn : Byte) : Statement (.rnd x nn) := encXNN_mask _ _ _
theorem drw (x : Reg) (y : Reg) (n : Nibble) : Statement (.drw x y n) := encXYN_mask _ _ _ _
theorem skp (x : Reg) : Statement (.skp x) := encX_mask _ _ _
theorem sknp (x : Reg) : Statement (.sknp x) := encX_mask _ _ _
theorem ldXDt (x : Reg) : Statement (.ldXDt x) := encX_mask _ _ _
theorem ldXK (x : Reg) : Statement (.ldXK x) := encX_mask _ _ _
theorem ldDtX (x : Reg) : Statement (.ldDtX x) := encX_mask _ _ _
theorem ldStX (x : Reg) : Statement (.ldStX x) := encX_mask _ _ _
theorem addIX (x : Reg) : Statement (.addIX x) := encX_mask _ _ _
theorem ldFX (x : Reg) : Statement (.ldFX x) := encX_mask _ _ _
theorem ldBX (x : Reg) : Statement (.ldBX x) := encX_mask _ _ _
theorem stRegs (x : Reg) : Statement (.stRegs x) := encX_mask _ _ _
theorem ldRegs (x : Reg) : Statement (.ldRegs x) := encX_mask _ _ _
theorem unimpl (w : Word) : Statement (.unimpl w) := BitVec.and_zero

end Sys2Proof.Laws.SelectedByOwnRow
end

