-- ==== Sys2Proof/Laws/Reset.lean ====
section
/-! SUPPORT. What a reset leaves, for a machine with any font (10_state.md R27, R45; 70_reset_and_hazards.md R290). -/

namespace Sys2Proof.Machine

/-- The memory after the reset of a machine with the given font. -/
def resetMemory (font : Vector Byte 80) : Memory := memSetMany [] fontBase font.toList

/-- Everything a reset does: the reset state with this font and the memory that holds it. -/
theorem State.resetWithFont_eq (font : Vector Byte 80) :
    State.resetWithFont font = { State.reset with font := font, mem := resetMemory font } :=
  State.storeAt_eq font.toList _ fontBase (by rw [Vector.length_toList]; decide)

@[simp] theorem State.resetWithFont_mem (font : Vector Byte 80) :
    (State.resetWithFont font).mem = resetMemory font := by rw [State.resetWithFont_eq]
@[simp] theorem State.resetWithFont_font (font : Vector Byte 80) : (State.resetWithFont font).font = font := by
  rw [State.resetWithFont_eq]
@[simp] theorem State.resetWithFont_pc (font : Vector Byte 80) :
    (State.resetWithFont font).pc = State.reset.pc := by rw [State.resetWithFont_eq]
@[simp] theorem State.resetWithFont_stack (font : Vector Byte 80) :
    (State.resetWithFont font).stack = [] := by rw [State.resetWithFont_eq]; rfl
@[simp] theorem State.resetWithFont_fault (font : Vector Byte 80) :
    (State.resetWithFont font).fault = none := by rw [State.resetWithFont_eq]; rfl

/-- The host's reset, field by field (R290). -/
theorem hostReset_eq (s : State) : hostReset s =
    { State.reset with font := s.font, mem := resetMemory s.font, rndCount := s.rndCount, reports := s.reports } := by
  rw [hostReset, State.resetWithFont_eq]

theorem resetByte_outside {a : Nat} (h : a < 0x050 ∨ 0x09F < a) : resetByte a = 0 := by
  unfold resetByte fontBase
  split
  · have hl : fontBytes.length ≤ a - 0x050 := by
      show 80 ≤ a - 0x050
      omega
    rw [List.getD_eq_getElem?_getD, List.getElem?_eq_none hl]
    rfl
  · rfl

/-- The bytes of the reset memory: the font at 0x050 to 0x09F, zero everywhere else (R27, R45). -/
theorem resetMemory_get (font : Vector Byte 80) (a : Nat) :
    memGet (resetMemory font) a = if h : 0x050 ≤ a ∧ a < 0x0A0 then font[a - 0x050] else 0 := by
  rw [resetMemory, memGet_memSetMany]
  have hl : font.toList.length = 80 := Vector.length_toList
  by_cases h : 0x050 ≤ a ∧ a < 0x0A0
  · rw [dif_pos h, dif_pos (by rw [hl]; unfold fontBase; omega)]
    rfl
  · rw [dif_neg h, dif_neg (by rw [hl]; unfold fontBase; omega)]
    exact resetByte_outside (by omega)

theorem resetMemory_wf (font : Vector Byte 80) : Memory.wf (resetMemory font) :=
  memSetMany_wf font.toList reset_memory_wf (by rw [Vector.length_toList]; decide)

end Sys2Proof.Machine
end

