-- ==== Sys2Proof/Tests/Slice0.lean ====
section
/-! SUPPORT. Tests. Every expected value is from spec/95_test_vectors.md (T…, S…) or worked by hand from the rules
named; none is the model's own answer. -/

namespace Sys2Proof.Tests
open Sys2Proof Sys2Proof.Machine

/-- The reset state with some registers loaded. -/
def regs (l : List (Reg × Byte)) : State := l.foldl (fun s p => s.setReg p.1 p.2) State.reset

/-- One step with the word `w` at `PC`: a property of the next state, false when there is none. -/
def after (s : State) (w : Word) (p : State → Bool) : Bool :=
  match step (s.placeWord w) with
  | .next t => p t
  | .fault _ | .refused _ => false

/-- The reset state with bytes stored from an address upward. -/
def withBytes (s : State) (a : Nat) (bs : List Byte) : State := s.storeAt a bs

/-- The state with some keys down. -/
def down (s : State) (ks : List Nat) : State := ks.foldl (fun s k => s.setKeys (s.keys.setIfInBounds k true)) s

/-- The byte at an address, for comparison. -/
def byteAt (s : State) (a : Nat) : Byte := memGet s.mem a

/-- The pixels that are on, in row-major order, among the columns and rows below the given bounds. -/
def lit (s : State) (cs rs : List Nat) : List (Nat × Nat) :=
  (rs.flatMap fun r => cs.map fun c => (c, r)).filter fun p => px s.fb p.1 p.2

/-! ### WellFormed: the one check, and a term it refuses -/

/-- R100: 0x00E0 is not in the unrecognised space. -/
theorem test_wellFormed_refuses_unimpl_of_cls : (Instr.unimpl 0x00E0#16).wellFormed = false := by decide
/-- R100: 0x8128 is. -/
theorem test_wellFormed_admits_unimpl : (Instr.unimpl 0x8128#16).wellFormed = true := by decide

/-! ### Decode: a word for every constructor, its nibbles written out from R92 and R96 -/

theorem test_decode_class_0_to_2 :
    decodeWord 0b0000000011100000#16 = .cls ∧ decodeWord 0b0000000011101110#16 = .ret ∧
    decodeWord 0b0001101010111100#16 = .jp 0xABC#12 ∧ decodeWord 0b0010001100000001#16 = .call 0x301#12 := by decide

theorem test_decode_skips :
    decodeWord 0b0011101000000111#16 = .seXNN 0xA 0x07#8 ∧ decodeWord 0b0100101000000111#16 = .sneXNN 0xA 0x07#8 ∧
    decodeWord 0b0101000100100000#16 = .seXY 1 2 ∧ decodeWord 0b1001000100100000#16 = .sneXY 1 2 := by decide

theorem test_decode_immediates :
    decodeWord 0b0110101000101100#16 = .ldXNN 0xA 0x2C#8 ∧ decodeWord 0b0111000000000101#16 = .addXNN 0 0x05#8 ∧
    decodeWord 0b1100001100001111#16 = .rnd 3 0x0F#8 := by decide

theorem test_decode_class_8 :
    decodeWord 0b1000000100100000#16 = .ldXY 1 2 ∧ decodeWord 0b1000000100100001#16 = .orXY 1 2 ∧
    decodeWord 0b1000000100100010#16 = .andXY 1 2 ∧ decodeWord 0b1000000100100011#16 = .xorXY 1 2 ∧
    decodeWord 0b1000000000010100#16 = .addXY 0 1 ∧ decodeWord 0b1000000000010101#16 = .sub 0 1 ∧
    decodeWord 0b1000000100100110#16 = .shr 1 2 ∧ decodeWord 0b1000000000010111#16 = .subn 0 1 ∧
    decodeWord 0b1000000100101110#16 = .shl 1 2 := by decide

theorem test_decode_index_and_display :
    decodeWord 0b1010001011110000#16 = .ldI 0x2F0#12 ∧ decodeWord 0b1011001000010000#16 = .jpV0 0x210#12 ∧
    decodeWord 0b1101000000010101#16 = .drw 0 1 5#4 := by decide

theorem test_decode_keypad :
    decodeWord 0b1110001010011110#16 = .skp 2 ∧ decodeWord 0b1110001010100001#16 = .sknp 2 ∧
    decodeWord 0b1111000100001010#16 = .ldXK 1 := by decide

theorem test_decode_class_F :
    decodeWord 0b1111001100000111#16 = .ldXDt 3 ∧ decodeWord 0b1111000000010101#16 = .ldDtX 0 ∧
    decodeWord 0b1111000100011000#16 = .ldStX 1 ∧ decodeWord 0b1111001100011110#16 = .addIX 3 ∧
    decodeWord 0b1111000000101001#16 = .ldFX 0 ∧ decodeWord 0b1111000000110011#16 = .ldBX 0 ∧
    decodeWord 0b1111001001010101#16 = .stRegs 2 ∧ decodeWord 0b1111000101100101#16 = .ldRegs 1 := by decide

/-- T001 to T008: words next to defined ones that match no row. -/
theorem test_decode_unrecognized :
    [0x0000#16, 0x0123#16, 0x00E1#16, 0x5121#16, 0x9121#16, 0x8128#16, 0xE19F#16, 0xF1FF#16].all
      (fun w => decodeWord w == .unimpl w) = true := by decide

/-- R90: too few bytes are rejected by name, bytes left over are handed back. -/
theorem test_decodeBytes : decodeBytes [0x12] = .error .truncated ∧
    decodeBytes [0x12, 0x34, 0x56] = .ok (.jp 0x234#12, [0x56]) := ⟨rfl, by decide⟩

/-- The encoder on the worked examples of R141, R167, R213 and R195. -/
theorem test_encode : encode (.jp 0xABC#12) = 0x1ABC#16 ∧ encode (.addXY 0 1) = 0x8014#16 ∧
    encode (.drw 0 1 5#4) = 0xD015#16 ∧ encode (.stRegs 2) = 0xF255#16 := by decide

/-! ### The step cycle -/

/-- T012: 0xFFE is the last address that can be fetched. -/
theorem test_T012 : after (State.reset.setPc 0x0FFE) 0x1200 (fun t => t.pc == 0x0200) = true := by decide
/-- T013: at 0xFFF the fetch faults at 0x1000 and nothing ticks. -/
theorem test_T013 : after ((State.reset.setPc 0x0FFF).setDt 5) 0x0000 (fun t =>
    t.pc == 0x0FFF && t.dt == 5 && t.fault == some (.memoryAddressFault 0x1000)) = true := by decide
/-- T015, T016: above 0xFFF the fault carries `PC`. -/
theorem test_T015_T016 : [0x10FE#16, 0xFFFF#16].all (fun a => after (State.reset.setPc a) 0x0000 (fun t =>
    t.pc == a && t.fault == some (.memoryAddressFault a))) = true := by decide
/-- T017: halted, nothing changes. -/
theorem test_T017 : (match step (((State.reset.placeWord 0x6007).setDt 5).setFault (some .stackUnderflow)) with
    | .next t => t.pc == 0x0200 && t.dt == 5 && t.reg 0 == 0
    | .fault _ | .refused _ => false) = true := by decide
/-- T011: an odd `PC`. -/
theorem test_T011 : after (State.reset.setPc 0x0201) 0x6007 (fun t => t.pc == 0x0203 && t.reg 0 == 0x07) = true := by
  decide
/-- The host's way in: a table word placed by `withFetchWord` is run by the next step (T100). -/
theorem test_withFetchWord : decodeTableWord 16 0x1ABC = some (.jp 0xABC#12) ∧
    (match step (State.reset.withFetchWord 16 0x1ABC) with
      | .next t => t.pc == 0x0ABC
      | .fault _ | .refused _ => false) = true := by decide
/-- `withFetchWord` makes a halted state run again, and places no byte above 0xFFF. -/
theorem test_placeWord_edges : ((State.reset.setFault (some .stackUnderflow)).placeWord 0x1ABC).fault = none ∧
    ((State.reset.setPc 0x0FFF).placeWord 0x1ABC).mem = [(0x0FFF, 0x1A#8)] ∧
    ((State.reset.setPc 0x1000).placeWord 0x1ABC).mem = [] := by decide

/-! ### Control transfer (41_control_flow.md) -/

/-- T100. -/
theorem test_T100 : after State.reset 0x1ABC (fun t => t.pc == 0x0ABC && t.stack == []) = true := by decide
/-- T101: a jump to itself; the timer ticks. -/
theorem test_T101 : after (State.reset.setDt 2) 0x1200 (fun t => t.pc == 0x0200 && t.dt == 1) = true := by decide
/-- T104: a nested call. -/
theorem test_T104 : after (((State.reset.setPc 0x0300).setStack [0x0206])) 0x2ABC
    (fun t => t.pc == 0x0ABC && t.stack == [0x0206, 0x0302]) = true := by decide
/-- T105: the call at 0xFFE pushes 0x1000. -/
theorem test_T105 : after (State.reset.setPc 0x0FFE) 0x2300
    (fun t => t.pc == 0x0300 && t.stack == [0x1000]) = true := by decide
/-- T107. -/
theorem test_T107 : after ((State.reset.setPc 0x0400).setStack [0x0206, 0x0302]) 0x00EE
    (fun t => t.pc == 0x0302 && t.stack == [0x0206]) = true := by decide
/-- T108: an empty stack: nothing but the latch changes, no tick. -/
theorem test_T108 : after ((regs [(3, 0x09)]).setDt 5) 0x00EE
    (fun t => t.pc == 0x0200 && t.dt == 5 && t.fault == some .stackUnderflow) = true := by decide
/-- T111: always `V[0]`, not `V[X]`. -/
theorem test_T111 : after (regs [(3, 0x55)]) 0xB300 (fun t => t.pc == 0x0300) = true := by decide
/-- T112: the sum is not reduced modulo 4096. -/
theorem test_T112 : after (regs [(0, 0xFF)]) 0xBFFF (fun t => t.pc == 0x10FE && t.fault == none) = true := by decide
/-- T113. -/
theorem test_T113 : after (regs [(0xA, 0x42)]) 0x3A42 (fun t => t.pc == 0x0204) = true := by decide
/-- T114. -/
theorem test_T114 : after (regs [(0xA, 0x43)]) 0x3A42 (fun t => t.pc == 0x0202) = true := by decide
/-- T115. -/
theorem test_T115 : after (regs [(0xA, 0x42)]) 0x4A42 (fun t => t.pc == 0x0202) = true := by decide
/-- T116. -/
theorem test_T116 : after (regs [(0xA, 0x43)]) 0x4A42 (fun t => t.pc == 0x0204) = true := by decide
/-- T118. -/
theorem test_T118 : after (regs [(0xA, 0x09), (0xB, 0x08)]) 0x5AB0 (fun t => t.pc == 0x0202) = true := by decide
/-- T119: `X = Y` always skips. -/
theorem test_T119 : after (regs [(0xA, 0x09)]) 0x5AA0 (fun t => t.pc == 0x0204) = true := by decide
/-- T120. -/
theorem test_T120 : after (regs [(0xA, 0x09), (0xB, 0x08)]) 0x9AB0 (fun t => t.pc == 0x0204) = true := by decide
/-- T122: `X = Y` never skips. -/
theorem test_T122 : after (regs [(0xA, 0x09)]) 0x9AA0 (fun t => t.pc == 0x0202) = true := by decide
/-! ### Load, arithmetic, logic, shift, random (42_load_alu.md) -/

/-- T200. -/
theorem test_T200 : after State.reset 0x6AFF (fun t => t.reg 0xA == 0xFF && t.pc == 0x0202) = true := by decide
/-- T202: wraps, `VF` untouched. -/
theorem test_T202 : after (regs [(0xA, 0xFF), (0xF, 0x01)]) 0x7A01
    (fun t => t.reg 0xA == 0x00 && t.reg 0xF == 0x01) = true := by decide
/-- T204: `X = F`. -/
theorem test_T204 : after (regs [(0xF, 0xFF)]) 0x7F01 (fun t => t.reg 0xF == 0x00) = true := by decide
/-- T205. -/
theorem test_T205 : after (regs [(1, 0x11), (2, 0x22)]) 0x8120
    (fun t => t.reg 1 == 0x22 && t.reg 2 == 0x22) = true := by decide
/-- T206: `VF` untouched. -/
theorem test_T206 : after (regs [(1, 0x0C), (2, 0x0A), (0xF, 0x55)]) 0x8121
    (fun t => t.reg 1 == 0x0E && t.reg 0xF == 0x55) = true := by decide
/-- T207. -/
theorem test_T207 : after (regs [(1, 0x0C), (2, 0x0A), (0xF, 0x55)]) 0x8122
    (fun t => t.reg 1 == 0x08 && t.reg 0xF == 0x55) = true := by decide
/-- T208. -/
theorem test_T208 : after (regs [(1, 0x0C), (2, 0x0A), (0xF, 0x55)]) 0x8123
    (fun t => t.reg 1 == 0x06 && t.reg 0xF == 0x55) = true := by decide
/-- T213: a sum of 255 is no carry. -/
theorem test_T213 : after (regs [(1, 0xFF), (2, 0x00), (0xF, 0x01)]) 0x8124
    (fun t => t.reg 1 == 0xFF && t.reg 0xF == 0x00) = true := by decide
/-- T216: `Y = F`: the operand is read before the flag is written. -/
theorem test_T216 : after (regs [(1, 0xFF), (0xF, 0x01)]) 0x81F4
    (fun t => t.reg 1 == 0x00 && t.reg 0xF == 0x01) = true := by decide
/-- T219: a borrow. -/
theorem test_T219 : after (regs [(1, 0x03), (2, 0x05), (0xF, 0x01)]) 0x8125
    (fun t => t.reg 1 == 0xFE && t.reg 0xF == 0x00) = true := by decide
/-- T222: `X = F`: flag 1 is written, then 1 - 3. -/
theorem test_T222 : after (regs [(1, 0x03), (0xF, 0x05)]) 0x8F15 (fun t => t.reg 0xF == 0xFE) = true := by decide
/-- T226: the source is `V[Y]`. -/
theorem test_T226 : after (regs [(1, 0xFF), (2, 0x05)]) 0x8126
    (fun t => t.reg 1 == 0x02 && t.reg 0xF == 0x01 && t.reg 2 == 0x05) = true := by decide
/-- T230: `Y = F`: flag 1, then 1 >> 1. -/
theorem test_T230 : after (regs [(1, 0xFF), (0xF, 0x03)]) 0x81F6
    (fun t => t.reg 1 == 0x00 && t.reg 0xF == 0x01) = true := by decide
/-- T232: a borrow. -/
theorem test_T232 : after (regs [(1, 0x05), (2, 0x03), (0xF, 0x01)]) 0x8127
    (fun t => t.reg 1 == 0xFE && t.reg 0xF == 0x00) = true := by decide
/-- T234: `X = F`: flag 1, then 5 - 1. -/
theorem test_T234 : after (regs [(1, 0x05), (0xF, 0x03)]) 0x8F17 (fun t => t.reg 0xF == 0x04) = true := by decide
/-- T236: the source is `V[Y]`. -/
theorem test_T236 : after (regs [(1, 0xFF), (2, 0x81)]) 0x812E
    (fun t => t.reg 1 == 0x02 && t.reg 0xF == 0x01 && t.reg 2 == 0x81) = true := by decide
/-- T240: `Y = F`: flag 1, then 1 << 1. -/
theorem test_T240 : after (regs [(1, 0x11), (0xF, 0x80)]) 0x81FE
    (fun t => t.reg 1 == 0x02 && t.reg 0xF == 0x01) = true := by decide
/-! ### Index register and memory (43_index_memory.md) -/

/-- T300. -/
theorem test_T300 : after State.reset 0xAFFF (fun t => t.i == 0x0FFF) = true := by decide
/-- T302: 0x1000 is held without a fault. -/
theorem test_T302 : after ((regs [(1, 0x01)]).setI 0x0FFF) 0xF11E
    (fun t => t.i == 0x1000 && t.fault == none) = true := by decide
/-- T303: wraps modulo 65536. -/
theorem test_T303 : after ((regs [(1, 0x01), (0xF, 0x55)]).setI 0xFFFF) 0xF11E
    (fun t => t.i == 0x0000 && t.reg 0xF == 0x55) = true := by decide
/-- T305. -/
theorem test_T305 : after (regs [(0, 0x0F)]) 0xF029 (fun t => t.i == 0x009B) = true := by decide
/-- T307: unmasked. -/
theorem test_T307 : after (regs [(0, 0xFF)]) 0xF029 (fun t => t.i == 0x054B) = true := by decide
/-- T312: the last legal `I`. -/
theorem test_T312 : after ((regs [(1, 0x9C)]).setI 0x0FFD) 0xF133
    (fun t => byteAt t 0xFFD == 1 && byteAt t 0xFFE == 5 && byteAt t 0xFFF == 6) = true := by decide
/-- T313: nothing is stored, nothing ticks. -/
theorem test_T313 : after (((regs [(1, 0x9C)]).setI 0x0FFE).setDt 3) 0xF133
    (fun t => t.fault == some (.memoryAddressFault 0x1000) && byteAt t 0xFFE == 0 && t.dt == 3) = true := by decide
/-- T316. -/
theorem test_T316 : after ((regs [(0, 0xAA), (1, 0xBB), (2, 0xCC), (3, 0xDD)]).setI 0x0300) 0xF255
    (fun t => byteAt t 0x300 == 0xAA && byteAt t 0x302 == 0xCC && byteAt t 0x303 == 0) = true := by decide
/-- T319: a store into the font lands. -/
theorem test_T319 : after ((regs [(0, 0xAA)]).setI 0x0050) 0xF055
    (fun t => byteAt t 0x050 == 0xAA && byteAt t 0x051 == 0x90) = true := by decide
/-- T320: `V3` and up untouched. -/
theorem test_T320 : after (withBytes ((regs [(3, 0x77)]).setI 0x0300) 0x300 [1, 2, 3, 4]) 0xF265
    (fun t => t.reg 0 == 1 && t.reg 2 == 3 && t.reg 3 == 0x77 && t.i == 0x0300) = true := by decide
/-- T323: `V0` is not loaded. -/
theorem test_T323 : after (withBytes (State.reset.setI 0x0FFF) 0xFFF [0x5A]) 0xF165
    (fun t => t.fault == some (.memoryAddressFault 0x1000) && t.reg 0 == 0) = true := by decide
/-! ### Display (44_display.md) -/

/-- T400: `VF` untouched. -/
theorem test_T400 : after ((regs [(0xF, 0x01)]).setFb (setPx (setPx clearGrid 63 31 true) 0 0 true)) 0x00E0
    (fun t => !px t.fb 0 0 && !px t.fb 63 31 && t.reg 0xF == 0x01) = true := by decide
/-- T407: one hit is enough, and is erased. -/
theorem test_T407 : after
    (withBytes ((State.reset.setI 0x0300).setFb (setPx (setPx clearGrid 1 0 true) 2 0 true)) 0x300 [0xC0]) 0xD011
    (fun t => lit t (List.range 8) [0, 1] == [(0, 0), (2, 0)] && t.reg 0xF == 0x01) = true := by decide
/-- T416: a clipped row is still read, and faults. -/
theorem test_T416 : after (withBytes ((regs [(1, 0x1F)]).setI 0x0FFF) 0xFFF [0x80]) 0xD012
    (fun t => t.fault == some (.memoryAddressFault 0x1000) && !px t.fb 0 31) = true := by decide
/-! ### Keypad and timers (45_keypad_timers.md) -/

/-- T500. -/
theorem test_T500 : after (down (regs [(1, 0x07)]) [7]) 0xE19E
    (fun t => t.pc == 0x0204) = true := by decide
/-- T502: the index 0x17 is not masked. -/
theorem test_T502 : after (down (regs [(1, 0x17)]) [7]) 0xE19E
    (fun t => t.pc == 0x0202) = true := by decide
/-- T503. -/
theorem test_T503 : after (down (regs [(1, 0x07)]) [7]) 0xE1A1
    (fun t => t.pc == 0x0202) = true := by decide
/-- T505: index 16 is up whatever is down. -/
theorem test_T505 : after ((regs [(1, 0x10)]).setKeys (Vector.replicate 16 true)) 0xE1A1
    (fun t => t.pc == 0x0204) = true := by decide
/-- T506: read before the tick. -/
theorem test_T506 : after (State.reset.setDt 5) 0xF107 (fun t => t.reg 1 == 5 && t.dt == 4) = true := by decide
/-- T508: set, then ticked. -/
theorem test_T508 : after (regs [(1, 0x05)]) 0xF115 (fun t => t.dt == 4 && t.st == 0) = true := by decide
/-- T510. -/
theorem test_T510 : after ((regs [(1, 0x00)]).setDt 9) 0xF115 (fun t => t.dt == 0) = true := by decide
/-- T512: the timers are independent. -/
theorem test_T512 : after ((regs [(1, 0xFF)]).setDt 1) 0xF118 (fun t => t.dt == 0 && t.st == 254) = true := by decide
/-- T513: parked; the tick happens. -/
theorem test_T513 : after ((regs [(1, 0x09)]).setDt 3) 0xF10A
    (fun t => t.pc == 0x0200 && t.dt == 2 && t.reg 1 == 0x09) = true := by decide
/-- T514: the lowest index. -/
theorem test_T514 : after (down (regs [(1, 0xEE)]) [3, 9]) 0xF10A
    (fun t => t.pc == 0x0202 && t.reg 1 == 0x03) = true := by decide
/-! ### The unrecognised instruction (40_step_cycle.md R128) -/

/-- T004: no skip. -/
theorem test_T004 : after (regs [(1, 0x07), (2, 0x07)]) 0x5121
    (fun t => t.pc == 0x0202 && t.reports == [⟨0x0200, 0x5121⟩]) = true := by decide
/-- T009: the timers tick. -/
theorem test_T009 : after ((State.reset.setDt 5).setSt 1) 0xFFFF
    (fun t => t.dt == 4 && t.st == 0 && t.reports == [⟨0x0200, 0xFFFF⟩]) = true := by decide

/-- R172, T242: a zero mask gives zero, whatever the free byte is. -/
theorem test_T242 : exec (.rnd 1 0x00) (regs [(1, 0x99)]) =
    .next (((regs [(1, 0x99)]).advance.drawn).setReg 1 0x00) := by
  simp [exec, execRnd]
/-- R172, T243: a full mask gives the free byte itself. -/
theorem test_T243 : exec (.rnd 1 0xFF) State.reset =
    .next (State.reset.advance.drawn.setReg 1 (Config.randomByte 0)) := by
  have h (b : Byte) : b &&& 0xFF = b := BitVec.and_allOnes
  simp only [exec, execRnd, h]
  rfl

/-! ### Host moves (60_exceptions.md) -/

/-- T604, T605: a key outside 0 to 15 is rejected. -/
theorem test_T604_T605 : (match hostMove (.keyDown 16) State.reset, hostMove (.keyUp 255) State.reset with
    | .error .invalidKeyIndex, .error .invalidKeyIndex => true
    | _, _ => false) = true := by decide
/-- T606: down, down, up. -/
theorem test_T606 : (applyMoves [.host (.keyDown 5), .host (.keyDown 5)] State.reset).keys[5] = true ∧
    (applyMoves [.host (.keyDown 5), .host (.keyDown 5), .host (.keyUp 5)] State.reset).keys[5] = false := by decide
/-- T608: a load while halted writes its bytes and does not clear the fault. -/
theorem test_T608 : (applyMoves [.step, .host (.loadProgram [0x12, 0x00])] (State.reset.placeWord 0x00EE)).fault =
      some .stackUnderflow ∧
    byteAt (applyMoves [.step, .host (.loadProgram [0x12, 0x00])] (State.reset.placeWord 0x00EE)) 0x200 = 0x12 := by
  decide
/-- T609: reset clears the fault, the program and the keys. -/
theorem test_T609 :
    applyMoves [.step, .host (.keyDown 1), .host .reset] (State.reset.placeWord 0x00EE) = State.reset := by decide

/-- R27, R290: a host reset of a machine with another font writes that font, over whatever the program stored. -/
theorem test_reset_keeps_the_font (b : Byte) :
    byteAt (hostReset ((State.resetWithFont (Vector.replicate 80 0xAA)).storeAt 0x050 [b])) 0x050 = 0xAA ∧
    byteAt (hostReset ((State.resetWithFont (Vector.replicate 80 0xAA)).storeAt 0x050 [b])) 0x0A0 = 0x00 := by
  have hf : ((State.resetWithFont (Vector.replicate 80 0xAA)).storeAt 0x050 [b]).font = Vector.replicate 80 0xAA := by
    rw [State.storeAt_eq _ _ _ (by simp), State.setMem_font, State.resetWithFont_font]
  simp only [byteAt, hostReset_eq, hf, resetMemory_get]
  exact ⟨by simp, by simp⟩

/-! ### Witnesses: for each statement with hypotheses, a state and operands that meet all of them together, and for each
of its clauses a value at the edge of its range -/

/-- The hypothesis of every `EncodedAs` clause: a word that the row selects, the fields at their upper ends. -/
theorem witness_encodedAs : ([
    (0xFFFF#16, 0x00E0#16, 0x00E0#16), (0xFFFF#16, 0x00EE#16, 0x00EE#16), (0xF000#16, 0x1000#16, 0x1FFF#16),
    (0xF000#16, 0x2000#16, 0x2FFF#16), (0xF000#16, 0x3000#16, 0x3FFF#16), (0xF000#16, 0x4000#16, 0x4FFF#16),
    (0xF00F#16, 0x5000#16, 0x5FF0#16), (0xF000#16, 0x6000#16, 0x6FFF#16), (0xF000#16, 0x7000#16, 0x7FFF#16),
    (0xF00F#16, 0x8000#16, 0x8FF0#16), (0xF00F#16, 0x8001#16, 0x8FF1#16), (0xF00F#16, 0x8002#16, 0x8FF2#16),
    (0xF00F#16, 0x8003#16, 0x8FF3#16), (0xF00F#16, 0x8004#16, 0x8FF4#16), (0xF00F#16, 0x8005#16, 0x8FF5#16),
    (0xF00F#16, 0x8006#16, 0x8FF6#16), (0xF00F#16, 0x8007#16, 0x8FF7#16), (0xF00F#16, 0x800E#16, 0x8FFE#16)] ++ [
    (0xF00F#16, 0x9000#16, 0x9FF0#16), (0xF000#16, 0xA000#16, 0xAFFF#16), (0xF000#16, 0xB000#16, 0xBFFF#16),
    (0xF000#16, 0xC000#16, 0xCFFF#16), (0xF000#16, 0xD000#16, 0xDFFF#16), (0xF0FF#16, 0xE09E#16, 0xEF9E#16),
    (0xF0FF#16, 0xE0A1#16, 0xEFA1#16), (0xF0FF#16, 0xF007#16, 0xFF07#16), (0xF0FF#16, 0xF00A#16, 0xFF0A#16),
    (0xF0FF#16, 0xF015#16, 0xFF15#16), (0xF0FF#16, 0xF018#16, 0xFF18#16), (0xF0FF#16, 0xF01E#16, 0xFF1E#16),
    (0xF0FF#16, 0xF029#16, 0xFF29#16), (0xF0FF#16, 0xF033#16, 0xFF33#16), (0xF0FF#16, 0xF055#16, 0xFF55#16),
    (0xF0FF#16, 0xF065#16, 0xFF65#16)]).all (fun r => r.2.2 &&& r.1 == r.2.1) = true := by decide

theorem witness_DecodeOfEncodeIsIdentity : (Instr.unimpl 0x0000#16).wellFormed = true ∧
    (Instr.drw 15 15 0xF#4).wellFormed = true := by decide

/-- The state in which the word `w` is the next to run. -/
abbrev ready (w : Word) : State := State.reset.placeWord w

/-- A property of the next state, false when there is none. -/
def answers (s : State) (p : State → Bool) : Bool :=
  match step s with
  | .next t => p t
  | .fault _ | .refused _ => false

/-- A step answers a next state with a property, as far as evaluating it tells. -/
theorem exists_next {s : State} (p : State → Prop) [DecidablePred p] (h : answers s (fun t => decide (p t)) = true) :
    ∃ t, step s = .next t ∧ p t := by
  unfold answers at h
  cases hs : step s with
  | next t => exact ⟨t, rfl, by simpa [hs] using h⟩
  | fault f => simp [hs] at h
  | refused r => simp [hs] at h

theorem not_down {s : State} {k : Nat} (h : k < 16) (e : s.keys[k] = false) : ¬keyIsDown s k :=
  fun ⟨_, e'⟩ => Bool.false_ne_true (e.symm.trans e')

theorem witness_StepRunsTheDecodedInstruction : (ready 0x6A2C).fault = none ∧
    readByte (ready 0x6A2C).mem (ready 0x6A2C).pc = .ok 0x6A ∧
    readByte (ready 0x6A2C).mem ((ready 0x6A2C).pc + 1) = .ok 0x2C ∧
    decodeBytes [0x6A, 0x2C] = .ok (.ldXNN 0xA 0x2C, []) ∧ (Instr.ldXNN 0xA 0x2C).wellFormed = true := by decide

theorem witness_FetchReadsBigEndianWordOrFaults : (0xFFE#16 : Addr).toNat ≤ 0xFFE ∧ 0xFFE < (0xFFF#16 : Addr).toNat ∧
    0xFFE < (0x1000#16 : Addr).toNat ∧ 0xFFE < (0xFFFF#16 : Addr).toNat := by decide

theorem witness_HaltedStepChangesNothing : (State.reset.setFault (some .stackUnderflow)).fault ≠ none := by decide

theorem witness_FaultingStepChangesOnlyTheLatch : (ready 0x00EE).fault = none ∧
    ∃ t, step (ready 0x00EE) = .next t ∧ t.fault ≠ none := ⟨rfl, exists_next (·.fault ≠ none) (by decide)⟩

/-- The three ways of `FaultsAriseExactlyAsListed`, at their edges, and a step that raises none. -/
theorem witness_FaultsAriseExactlyAsListed :
    ((State.reset.setPc 0xFFF).fault = none ∧ 0xFFE < (State.reset.setPc 0xFFF).pc.toNat) ∧
    (((ready 0xF133).setI 0xFFE).fault = none ∧ fetch ((ready 0xF133).setI 0xFFE) = .ok 0xF133 ∧
      touchesInvalid (decodeWord 0xF133) ((ready 0xF133).setI 0xFFE)) ∧
    ((ready 0x00EE).fault = none ∧ fetch (ready 0x00EE) = .ok 0x00EE ∧ (ready 0x00EE).stack = []) ∧
    ¬touchesInvalid (decodeWord 0xF133) ((ready 0xF133).setI 0xFFD) := by
  refine ⟨by decide, ⟨by decide, by decide, ?_⟩, by decide, ?_⟩
  · show 0xFFF < _; decide
  · show ¬0xFFF < _; decide

theorem witness_TimersTickOncePerCompletedStep :
    (∃ t, step ((ready 0x6A2C).setDt 1) = .next t ∧ t.fault = none) ∧
    (∃ t, step (ready 0xF115) = .next t ∧ t.fault = none) ∧ decodeWord 0xF115 = .ldDtX 1 ∧
    (∃ t, step (ready 0xF118) = .next t ∧ t.fault = none) ∧ decodeWord 0xF118 = .ldStX 1 ∧
    (∃ t, step (ready 0x00EE) = .next t ∧ t.fault ≠ none) :=
  ⟨exists_next (·.fault = none) (by decide), exists_next (·.fault = none) (by decide), by decide,
    exists_next (·.fault = none) (by decide), by decide, exists_next (·.fault ≠ none) (by decide)⟩

/-- For each clause of `StepWritesOnlyTheStateNamed` a step that does change the state the clause speaks of. -/
theorem witness_StepWritesOnlyTheStateNamed :
    ((ready 0xF133).setI 0x300).fault = none ∧ fetch ((ready 0xF133).setI 0x300) = .ok 0xF133 ∧
    (∃ t, step (((ready 0xF133).setReg 1 0x9C).setI 0x300) = .next t ∧
      readByte t.mem 0x300 ≠ readByte (((ready 0xF133).setReg 1 0x9C).setI 0x300).mem 0x300) ∧
    (∃ t, step ((ready 0xD011).setI 0x050) = .next t ∧ px t.fb 0 0 ≠ false) ∧
    (∃ t, step (ready 0x2ABC) = .next t ∧ t.stack ≠ (ready 0x2ABC).stack) ∧
    (∃ t, step (ready 0xA2F0) = .next t ∧ t.i ≠ (ready 0xA2F0).i) ∧
    (∃ t, step (ready 0xC1FF) = .next t ∧ t.rndCount ≠ (ready 0xC1FF).rndCount) ∧
    (∃ t, step (ready 0x5121) = .next t ∧ t.reports ≠ (ready 0x5121).reports) ∧
    (∃ t, step (ready 0x00EE) = .next t ∧ t.fault ≠ (ready 0x00EE).fault) :=
  ⟨by decide, by decide, exists_next (fun t => readByte t.mem 0x300 ≠ _) (by decide),
    exists_next (fun t => px t.fb 0 0 ≠ false) (by decide), exists_next (·.stack ≠ _) (by decide),
    exists_next (·.i ≠ _) (by decide), exists_next (·.rndCount ≠ _) (by decide),
    exists_next (·.reports ≠ _) (by decide), exists_next (·.fault ≠ _) (by decide)⟩

theorem witness_StepWritesOnlyTheRegistersListed : fetch (ready 0x8F14) = .ok 0x8F14 ∧
    (∃ t, step (ready 0x8F14) = .next t ∧ True) ∧ (0xE : Reg) ∉ writtenRegs (decodeWord 0x8F14) :=
  ⟨by decide, exists_next (fun _ => True) (by decide), by decide⟩

/-- The bounds on return addresses, for a stack of one entry. -/
theorem one_return_address {b : Addr} (h : 0x0002 ≤ b.toNat ∧ b.toNat ≤ 0x1000) :
    ∀ a ∈ [b], 0x0002 ≤ a.toNat ∧ a.toNat ≤ 0x1000 := fun a ha => by
  rw [List.mem_singleton.1 ha]
  exact h

/-- The invariant with a return address on the stack, and with a fault latched. -/
theorem witness_StepKeepsTheInvariant : ((State.reset.setPc 0x10FE).push 0x1000).Inv ∧
    ((State.reset.setPc 0x0FFF).setFault (some (.memoryAddressFault 0x1000))).Inv ∧
    (∃ t, step ((State.reset.setPc 0x10FE).push 0x1000) = .next t ∧ True) := by
  refine ⟨⟨reset_memory_wf, by decide, one_return_address (by decide), trivial⟩,
    ⟨reset_memory_wf, by decide, fun _ h => absurd h List.not_mem_nil, ?_⟩, exists_next (fun _ => True) (by decide)⟩
  show 0xFFF < _ ∧ _
  exact ⟨by decide, .inr (.inr rfl)⟩

theorem witness_EveryMoveSequenceKeepsTheInvariant : ((State.reset.setPc 0x1002).push 0x0002).Inv :=
  ⟨reset_memory_wf, by decide, one_return_address (by decide), trivial⟩

/-- T608. -/
theorem witness_OnlyResetClearsALatchedFault : ((ready 0x00EE).setFault (some .stackUnderflow)).fault ≠ none ∧
    Move.host .reset ∉ [Move.step, .host (.loadProgram [0x12, 0x00]), .host (.keyDown 1), .step] := by decide

/-- P6: `FX55` at 0x206 stores the instruction at 0x208. -/
theorem witness_StoreIsSeenByTheNextFetch :
    let s := (((regs [(0, 0x62), (1, 0x33)]).setPc 0x206).setI 0x208).placeWord 0xF155
    s.fault = none ∧ fetch s = .ok 0xF155 ∧ decodeWord 0xF155 = .stRegs 1 ∧ s.i.toNat + (1 : Reg).val ≤ 0xFFF ∧
    (1 : Reg).val = (0 : Reg).val + 1 ∧ (1 : Reg) ≤ 1 ∧ effAddr s (0 : Reg).val = s.pc + 2 := by decide

/-- The next state, for a run as a sequence. -/
def nextOf (s : State) : State :=
  match step s with
  | .next t => t
  | .fault _ | .refused _ => s

/-- The states of a run that begins with `FX15` and goes on into zeroed memory. -/
def decayRun : Nat → State
  | 0 => nextOf ((regs [(0, 5)]).placeWord 0xF015)
  | k + 1 => nextOf (decayRun k)

theorem witness_DelayTimerDecays : ((regs [(0, 5)]).placeWord 0xF015).fault = none ∧
    fetch ((regs [(0, 5)]).placeWord 0xF015) = .ok 0xF015 ∧ decodeWord 0xF015 = .ldDtX 0 ∧
    step ((regs [(0, 5)]).placeWord 0xF015) = .next (decayRun 0) ∧
    ∀ k, k < 1 → step (decayRun k) = .next (decayRun (k + 1)) ∧ (decayRun (k + 1)).fault = none ∧
      ∀ v y, fetch (decayRun k) = .ok v → decodeWord v ≠ .ldDtX y := by
  refine ⟨by decide, by decide, by decide, rfl, ?_⟩
  intro k hk
  obtain rfl : k = 0 := by omega
  refine ⟨rfl, rfl, fun v y hv => ?_⟩
  have h0 : fetch (decayRun 0) = .ok 0x0000#16 := by decide
  rw [h0] at hv
  cases hv
  have hd : decodeWord 0x0000#16 = .unimpl 0x0000#16 := by decide
  rw [hd]
  exact Instr.noConfusion

/-- The last word of memory, walked over in one step. -/
theorem witness_ZeroMemoryIsWalkedThrough : (State.reset.setPc 0x0FFE).fault = none ∧
    (State.reset.setPc 0x0FFE).pc.toNat + 2 * 1 ≤ 0x1000 ∧
    ∀ a : Addr, (State.reset.setPc 0x0FFE).pc.toNat ≤ a.toNat → a.toNat ≤ 0xFFF →
      readByte (State.reset.setPc 0x0FFE).mem a = .ok 0#8 := by
  refine ⟨by decide, by decide, fun a h1 h2 => ?_⟩
  have hp : (State.reset.setPc 0x0FFE).pc.toNat = 0x0FFE := rfl
  rw [readByte_ok (by omega)]
  show Except.ok (resetByte a.toNat) = _
  rw [resetByte_outside (by omega)]
  rfl

/-- A machine whose font is all 0xAA: R27 puts it at both ends of the font region, and no move changes it. -/
theorem witness_FontParameterFillsTheGlyphs : 0 < 80 ∧ 79 < 80 ∧
    ((0x04F#16 : Addr).toNat < 0x050) ∧ (0x09F < (0x0A0#16 : Addr).toNat ∧ (0x0A0#16 : Addr).toNat ≤ 0xFFF) ∧
    (State.resetWithFont (Vector.replicate 80 0xAA)).font = Vector.replicate 80 0xAA :=
  ⟨by decide, by decide, by decide, by decide, State.resetWithFont_font _⟩

theorem witness_UnloadedMemoryIsWalkedToItsEnd : 1792 ≤ 1792 := by decide

/-- Two memories written in different orders, the one byte overwritten on the way. -/
theorem witness_CanonicalMemoriesThatReadAlikeAreEqual :
    let m := memSet (memSet [] 0x301 2) 0x300 1
    let m' := memSet (memSet (memSet [] 0x300 7) 0x301 2) 0x300 1
    Memory.wf m ∧ Memory.wf m' ∧ ∀ a : Addr, readByte m a = readByte m' a := by
  have e : memSet (memSet [] 0x301 2) 0x300 1 = memSet (memSet (memSet [] 0x300 7) 0x301 2) 0x300 1 := by decide
  refine ⟨by decide, by decide, fun a => ?_⟩
  rw [e]

theorem witness_ReturnPopsOrUnderflows : (State.reset.setStack [0x0206, 0x0302]).stack = [0x0206] ++ [0x0302] ∧
    (ready 0x00EE).stack = [] ∧ (ready 0x00EE).fault = none ∧ fetch (ready 0x00EE) = .ok 0x00EE := by decide

/-- S5. -/
theorem witness_CallThenReturnComesBack :
    let s := (withBytes (State.reset.setPc 0x2F0) 0xABC [0x00, 0xEE]).placeWord 0x2ABC
    s.fault = none ∧ fetch s = .ok (encode (.call 0xABC)) ∧
    readWord s.mem ((0xABC#12).setWidth 16) = .ok 0x00EE := by decide

/-- The clauses on `X ≠ F` of the sum, the subtractions and the shifts, and the hypothesis of `AliasingTableHolds`. -/
theorem witness_not_the_flag_register : (0 : Reg) ≠ regF ∧ (14 : Reg) ≠ regF := by decide

theorem witness_DecimalDigitsAreStored : (State.reset.setI 0xFFD).i.toNat + 2 ≤ 0xFFF ∧
    0xFFF < (State.reset.setI 0xFFE).i.toNat + 2 ∧ (0xFFC#16 ≠ effAddr (State.reset.setI 0xFFD) 0 ∧
    0xFFC#16 ≠ effAddr (State.reset.setI 0xFFD) 1 ∧ 0xFFC#16 ≠ effAddr (State.reset.setI 0xFFD) 2) := by decide

/-- Also the two clauses of `RegistersAreLoaded`. -/
theorem witness_RegistersAreStored : (State.reset.setI 0xFF0).i.toNat + (15 : Reg).val ≤ 0xFFF ∧
    0xFFF < (State.reset.setI 0xFF1).i.toNat + (15 : Reg).val ∧ (15 : Reg) ≤ 15 ∧
    (∀ k : Reg, k ≤ 15 → 0xFEF#16 ≠ effAddr (State.reset.setI 0xFF0) k.val) := by decide

theorem witness_ClearTurnsEveryPixelOff : 63 < 64 ∧ 31 < 32 := by decide

theorem witness_DrawXorsTheSprite : ((0x0#4).toNat = 0 ∨ 0xFFFF + (0x0#4).toNat - 1 ≤ 0xFFF) ∧
    (State.reset.setI 0xFF1).i.toNat + (0xF#4).toNat - 1 ≤ 0xFFF ∧
    (0 < (0xF#4).toNat ∧ 0xFFF < (State.reset.setI 0xFF2).i.toNat + (0xF#4).toNat - 1) ∧
    (0 < (0x1#4).toNat ∧ 0xFFF < (State.reset.setI 0x1000).i.toNat + (0x1#4).toNat - 1) := by decide

theorem witness_DrawingTwiceRestoresTheGrid : (0 : Reg) ≠ regF ∧ (14 : Reg) ≠ regF ∧
    ((0xF#4).toNat = 0 ∨ (State.reset.setI 0xFF1).i.toNat + (0xF#4).toNat - 1 ≤ 0xFFF) := by decide

/-- The keys 0 and 15, and the index 16 that names no key although all are down. -/
theorem witness_KeySkipsFollowTheLevel : keyIsDown (down State.reset [0, 15]) 0 ∧
    keyIsDown (down State.reset [0, 15]) 15 ∧ ¬keyIsDown (down State.reset [0, 15]) 14 ∧
    ¬keyIsDown (State.reset.setKeys (Vector.replicate 16 true)) 16 :=
  ⟨⟨by decide, by decide⟩, ⟨by decide, by decide⟩, not_down (by decide) (by decide),
    fun ⟨h, _⟩ => absurd h (by decide)⟩

theorem witness_TimersAreReadAndWritten : (ready 0xF307).fault = none ∧ fetch (ready 0xF307) = .ok 0xF307 ∧
    decodeWord 0xF307 = .ldXDt 3 ∧ fetch (ready 0xF015) = .ok 0xF015 ∧ decodeWord 0xF015 = .ldDtX 0 ∧
    fetch (ready 0xF118) = .ok 0xF118 ∧ decodeWord 0xF118 = .ldStX 1 := by decide

theorem noKeyDown_reset (w : Word) (k : Nat) : ¬keyIsDown (ready w) k := by
  rintro ⟨h, e⟩
  have hk : (ready w).keys = Vector.replicate 16 false := by
    simp only [State.placeWord]
    rw [State.storeAt_eq _ _ _ (by show 0x200 + 2 ≤ 0x1000; decide)]
    rfl
  simp [hk] at e

/-- T514 and T515: the lowest key is 3, and is 0; and no key at all. -/
theorem witness_KeyWaitLoadsTheLowestKeyOrParks : (keyIsDown (down State.reset [3, 9]) 3 ∧
    ∀ j, j < 3 → ¬keyIsDown (down State.reset [3, 9]) j) ∧ (keyIsDown (down State.reset [0]) 0 ∧
    ∀ j, j < 0 → ¬keyIsDown (down State.reset [0]) j) ∧ ∀ k, ¬keyIsDown (ready 0xF10A) k := by
  refine ⟨⟨⟨by decide, by decide⟩, ?_⟩, ⟨⟨by decide, by decide⟩, fun j hj => absurd hj (by omega)⟩,
    noKeyDown_reset 0xF10A⟩
  intro j hj
  interval_cases j <;> exact not_down (by decide) (by decide)

theorem witness_ParkedKeyWaitOnlyTicks : (ready 0xF10A).fault = none ∧ fetch (ready 0xF10A) = .ok 0xF10A ∧
    decodeWord 0xF10A = .ldXK 1 ∧ ∀ k, ¬keyIsDown (ready 0xF10A) k :=
  ⟨by decide, by decide, by decide, noKeyDown_reset 0xF10A⟩

/-- The edges of the font, of the program region and of memory (R61). -/
theorem witness_ResetStateIsAsTabled : 0x050 ≤ (0x050#16 : Addr).toNat ∧ (0x09F#16 : Addr).toNat ≤ 0x09F ∧
    (0x04F#16 : Addr).toNat < 0x050 ∧ (0x09F < (0x0A0#16 : Addr).toNat ∧ (0xFFF#16 : Addr).toNat ≤ 0xFFF) := by decide

theorem witness_LoadProgramCopiesTheImage : (List.replicate 3584 (0xAB#8 : Byte)).length ≤ 3584 ∧
    3584 < (List.replicate 3585 (0xAB#8 : Byte)).length ∧ 0 < (List.replicate 3584 (0xAB#8 : Byte)).length ∧
    (0x1FF#16 : Addr).toNat < 0x200 := by
  rw [List.length_replicate, List.length_replicate]
  decide

theorem witness_FirstFetchAfterLoadReadsTheImage : (List.replicate 3582 (0xAB#8 : Byte)).length ≤ 3582 :=
  List.length_replicate.le

theorem witness_KeyMovesSetOneLevel : 15 < 16 ∧ 16 ≤ 16 ∧ 14 ≠ 15 := by decide

theorem witness_SnapshotIsRowMajor : 63 < 64 ∧ 31 < 32 := by decide

end Sys2Proof.Tests
end

section
/-! SUPPORT. The two-byte read (spec/20_memory.md): its word and its fault address as numbers. -/

namespace Sys2Proof.Machine

/-- Big-endian: the byte at the lower address is the high one (R64). -/
theorem wordOfBytes_toNat (hi lo : Byte) : (wordOfBytes hi lo).toNat = 256 * hi.toNat + lo.toNat := by
  have hlo : lo.toNat < 2 ^ 8 := lo.isLt
  calc (wordOfBytes hi lo).toNat
      = hi.toNat <<< 8 ||| lo.toNat := BitVec.toNat_append hi lo
    _ = 2 ^ 8 * hi.toNat + lo.toNat := by rw [Nat.shiftLeft_eq, Nat.mul_comm, Nat.two_pow_add_eq_or_of_lt hlo]
    _ = 256 * hi.toNat + lo.toNat := rfl

/-- Settles O8: up to 0xFFE both byte reads are valid and the word is theirs; above it the fault is that of
`firstInvalid`. -/
theorem fetchReadsBigEndianWordOrFaults : Obligations.FetchReadsBigEndianWordOrFaults := by
  intro m a
  constructor
  · intro ha
    have hsucc : (a + 1).toNat = a.toNat + 1 := addr_toNat_succ (by omega)
    have hlo : readByte m (a + 1) = .ok (memGet m (a.toNat + 1)) := hsucc ▸ readByte_ok (by omega)
    exact ⟨_, _, _, readWord_ok ha, readByte_ok (by omega), hlo, wordOfBytes_toNat _ _⟩
  · intro ha
    refine ⟨firstInvalid a, readWord_fault ha, ?_⟩
    rw [firstInvalid_toNat (by omega)]
    split <;> omega

end Sys2Proof.Machine
end

section
/-! SUPPORT. The fields of the instruction word as numbers (spec/30_encoding.md R91): one lemma per field, and the two
overlaps derived from them. -/

namespace Sys2Proof

variable (w : Word)

/-- Bits `lo + n - 1` to `lo` of the word, as a number. -/
theorem extractLsb'_toNat_eq_div_mod (lo n : Nat) : (w.extractLsb' lo n).toNat = w.toNat / 2 ^ lo % 2 ^ n := by
  rw [BitVec.extractLsb'_toNat, Nat.shiftRight_eq_div_pow]

theorem fieldX_val : (fieldX w).val = w.toNat / 256 % 16 := extractLsb'_toNat_eq_div_mod w 8 4

theorem fieldY_val : (fieldY w).val = w.toNat / 16 % 16 := extractLsb'_toNat_eq_div_mod w 4 4

theorem fieldN_toNat : (fieldN w).toNat = w.toNat % 16 := BitVec.extractLsb'_toNat 0 4 w

theorem fieldNN_toNat : (fieldNN w).toNat = w.toNat % 256 := BitVec.extractLsb'_toNat 0 8 w

theorem fieldNNN_toNat : (fieldNNN w).toNat = w.toNat % 4096 := BitVec.extractLsb'_toNat 0 12 w

/-- The low twelve bits are a nibble above a byte. -/
theorem fieldNNN_eq_fieldX_fieldNN : (fieldNNN w).toNat = 256 * (fieldX w).val + (fieldNN w).toNat := by
  rw [fieldNNN_toNat, fieldX_val, fieldNN_toNat, Nat.add_comm]
  exact Nat.mod_mul (a := 256) (b := 16)

/-- The low byte is a nibble above a nibble. -/
theorem fieldNN_eq_fieldY_fieldN : (fieldNN w).toNat = 16 * (fieldY w).val + (fieldN w).toNat := by
  rw [fieldNN_toNat, fieldY_val, fieldN_toNat, Nat.add_comm]
  exact Nat.mod_mul (a := 16) (b := 16)

end Sys2Proof
end

section
namespace Sys2Proof

/-- Settles O5: each field's number, then the two overlaps. -/
theorem fieldsAreTheBitRanges : Obligations.FieldsAreTheBitRanges := fun w =>
  ⟨fieldX_val w, fieldY_val w, fieldN_toNat w, fieldNN_toNat w, fieldNNN_toNat w, fieldNNN_eq_fieldX_fieldNN w,
    fieldNN_eq_fieldY_fieldN w⟩

end Sys2Proof
end

section
/-! SUPPORT. Control transfers that write `PC` and nothing else (spec/41_control_flow.md): the frame, the two targets as
numbers, and each jump and skip as one write of `PC`. -/

namespace Sys2Proof.Machine

/-- A write of `PC` leaves every other component as it was. -/
theorem sameBut_setPc (s : State) (a : Addr) : SameBut [.pc] s (s.setPc a) := by
  intro c hc
  cases c with
  | pc => exact absurd (List.mem_singleton_self _) hc
  | mem => exact fun _ => rfl
  | _ => rfl

/-- A jump's own write of `PC` replaces the advance. -/
@[simp] theorem State.advance_setPc (s : State) (a : Addr) : s.advance.setPc a = s.setPc a := rfl

/-- A skip is 4 past the instruction when its condition holds and 2 past it otherwise. -/
theorem State.advance_skipIf (s : State) (c : Bool) :
    s.advance.skipIf c = s.setPc (if c then s.pc + 4 else s.pc + 2) := by
  cases c with
  | false => rfl
  | true => exact congrArg s.setPc (BitVec.add_assoc s.pc 2 2)

theorem addrOfImm_toNat (nnn : Imm12) : (addrOfImm nnn).toNat = nnn.toNat :=
  BitVec.toNat_setWidth_of_le (by decide)

theorem addrOfByte_toNat (b : Byte) : (addrOfByte b).toNat = b.toNat :=
  BitVec.toNat_setWidth_of_le (by decide)

/-- R144: the sum is at most 0xFFF + 0xFF, so it does not wrap. -/
theorem addrOfImm_add_addrOfByte_toNat (nnn : Imm12) (b : Byte) :
    (addrOfImm nnn + addrOfByte b).toNat = nnn.toNat + b.toNat := by
  have hnnn : nnn.toNat < 2 ^ 12 := nnn.isLt
  have hb : b.toNat < 2 ^ 8 := b.isLt
  rw [BitVec.toNat_add, addrOfImm_toNat, addrOfByte_toNat]
  exact Nat.mod_eq_of_lt (by omega)

theorem exec_jp (nnn : Imm12) (s : State) : exec (.jp nnn) s = .next (s.setPc (addrOfImm nnn)) := rfl

theorem exec_jpV0 (nnn : Imm12) (s : State) :
    exec (.jpV0 nnn) s = .next (s.setPc (addrOfImm nnn + addrOfByte (s.reg 0))) := rfl

theorem exec_seXNN (x : Reg) (nn : Byte) (s : State) :
    exec (.seXNN x nn) s = .next (s.setPc (if s.reg x = nn then s.pc + 4 else s.pc + 2)) := by
  simp [exec, execSeXNN, State.advance_skipIf]

theorem exec_sneXNN (x : Reg) (nn : Byte) (s : State) :
    exec (.sneXNN x nn) s = .next (s.setPc (if s.reg x = nn then s.pc + 2 else s.pc + 4)) := by
  simp [exec, execSneXNN, State.advance_skipIf]

theorem exec_seXY (x y : Reg) (s : State) :
    exec (.seXY x y) s = .next (s.setPc (if s.reg x = s.reg y then s.pc + 4 else s.pc + 2)) :=
  exec_seXNN x (s.reg y) s

theorem exec_sneXY (x y : Reg) (s : State) :
    exec (.sneXY x y) s = .next (s.setPc (if s.reg x = s.reg y then s.pc + 2 else s.pc + 4)) :=
  exec_sneXNN x (s.reg y) s

end Sys2Proof.Machine
end

section
namespace Sys2Proof.Machine

/-- Settles O26: each jump is one write of `PC`, and the target of `BNNN` does not wrap. -/
theorem jumpsReplaceThePc : Obligations.JumpsReplaceThePc := by
  refine ⟨encodedAs_of_mem (r := rowNNN 0x1000#16 .jp) (by simp [opcodeMap, opcodeMapLow]),
    encodedAs_of_mem (r := rowNNN 0xB000#16 .jpV0) (by simp [opcodeMap, opcodeMapHigh]), fun nnn s => ⟨?_, ?_⟩⟩
  · exact ⟨_, exec_jp nnn s, addrOfImm_toNat nnn, sameBut_setPc s _⟩
  · exact ⟨_, exec_jpV0 nnn s, addrOfImm_add_addrOfByte_toNat nnn (s.reg 0), sameBut_setPc s _⟩

/-- Settles O29: each skip is one write of `PC`, chosen by its condition. -/
theorem skipsPassOneInstruction : Obligations.SkipsPassOneInstruction := by
  refine ⟨encodedAs_of_mem (r := rowXNN 0x3000#16 .seXNN) (by simp [opcodeMap, opcodeMapLow]),
    encodedAs_of_mem (r := rowXNN 0x4000#16 .sneXNN) (by simp [opcodeMap, opcodeMapLow]),
    encodedAs_of_mem (r := rowXY 0x5000#16 .seXY) (by simp [opcodeMap, opcodeMapLow]),
    encodedAs_of_mem (r := rowXY 0x9000#16 .sneXY) (by simp [opcodeMap, opcodeMapMid]),
    fun x y nn s => ⟨?_, ?_, ?_, ?_⟩⟩
  · exact ⟨_, exec_seXNN x nn s, sameBut_setPc s _, rfl⟩
  · exact ⟨_, exec_sneXNN x nn s, sameBut_setPc s _, rfl⟩
  · exact ⟨_, exec_seXY x y s, sameBut_setPc s _, rfl⟩
  · exact ⟨_, exec_sneXY x y s, sameBut_setPc s _, rfl⟩

end Sys2Proof.Machine
end

section
/-! SUPPORT. Instructions that advance `PC` and write registers (spec/42_load_alu.md): their frame, built one write at a
time; the two additions as their writes; the flag byte as a number. -/

namespace Sys2Proof.Machine

/-- The advance stays within every frame that lists `PC`. -/
theorem sameBut_advance {cs : List Component} (s : State) (hpc : .pc ∈ cs) : SameBut cs s s.advance :=
  fun c hc => sameBut_setPc s (s.pc + 2) c fun h => hc (List.mem_singleton.mp h ▸ hpc)

/-- A further write of a listed register stays within the frame. -/
theorem SameBut.setReg {cs : List Component} {s t : State} {r : Reg} (h : SameBut cs s t) (hr : .reg r ∈ cs)
    (b : Byte) : SameBut cs s (t.setReg r b) := by
  intro c hc
  cases c with
  | reg q =>
    have hq : q ≠ r := fun e => hc (e ▸ hr)
    exact (State.setReg_reg t r q b).trans ((if_neg hq).trans (h (.reg q) hc))
  | _ => exact h _ hc

theorem flagByte_toNat (c : Bool) : (flagByte c).toNat = if c then 1 else 0 := by
  cases c with
  | false => rfl
  | true => rfl

theorem exec_addXNN (x : Reg) (nn : Byte) (s : State) :
    exec (.addXNN x nn) s = .next (s.advance.setReg x (s.reg x + nn)) := rfl

theorem exec_addXY (x y : Reg) (s : State) : exec (.addXY x y) s =
    .next ((s.advance.setReg regF (flagByte (carry (s.reg x) (s.reg y)))).setReg x (s.reg x + s.reg y)) := rfl

end Sys2Proof.Machine
end

section
namespace Sys2Proof.Machine

/-- Settles O32: the one write after the advance is that of `V[X]`. -/
theorem addImmediateWrapsWithoutFlag : Obligations.AddImmediateWrapsWithoutFlag := by
  refine ⟨encodedAs_of_mem (r := rowXNN 0x7000#16 .addXNN) (by simp [opcodeMap, opcodeMapLow]),
    fun x nn s => ⟨_, exec_addXNN x nn s, rfl, ?sum, ?frame⟩⟩
  case sum => rw [State.setReg_reg, if_pos rfl, BitVec.toNat_add]
  case frame => exact (sameBut_advance s (by simp)).setReg (by simp) _

/-- Settles O33: the sum is written last, so it stands for every `X`; the carry written before it stands when `X` is
not `F`. -/
theorem addSetsTheCarry : Obligations.AddSetsTheCarry := by
  refine ⟨encodedAs_of_mem (r := rowXY 0x8004#16 .addXY) (by simp [opcodeMap, opcodeMapMid]),
    fun x y s => ⟨_, exec_addXY x y s, rfl, ?sum, fun hx => ?carry, ?frame⟩⟩
  case sum => rw [State.setReg_reg, if_pos rfl, BitVec.toNat_add]
  case carry =>
    rw [State.setReg_reg, if_neg hx.symm, State.setReg_reg, if_pos rfl, flagByte_toNat]
    simp [carry]
  case frame => exact ((sameBut_advance s (by simp)).setReg (by simp) _).setReg (by simp) _

end Sys2Proof.Machine
end

section
/-! SUPPORT. A running step whose instruction goes on (spec/40_step_cycle.md R126), and the timer instructions as the
writes they are (spec/45_keypad_timers.md). -/

namespace Sys2Proof.Machine

/-- A running step whose instruction leaves the latch as it was ends with the tick of both timers (R125, R126). -/
theorem step_eq_tickTimers {s t : State} {w : Word} {i : Instr} (hs : s.fault = none) (hf : fetch s = .ok w)
    (hd : decodeWord w = i) (he : exec i s = .next t) (ht : t.fault = s.fault) : step s = .next t.tickTimers := by
  have hrun : s.halted = false := State.halted_eq_false.2 hs
  have hgoesOn : t.halted = false := State.halted_eq_false.2 (ht.trans hs)
  simp [step, stepCycle, hrun, hf, hd, he, hgoesOn]

/-- A write of a listed delay timer stays within the frame. -/
theorem SameBut.setDt {cs : List Component} {s t : State} (h : SameBut cs s t) (hdt : .dt ∈ cs) (b : Byte) :
    SameBut cs s (t.setDt b) := by
  intro c hc
  cases c with
  | dt => exact absurd hdt hc
  | _ => exact h _ hc

/-- A write of a listed sound timer stays within the frame. -/
theorem SameBut.setSt {cs : List Component} {s t : State} (h : SameBut cs s t) (hst : .st ∈ cs) (b : Byte) :
    SameBut cs s (t.setSt b) := by
  intro c hc
  cases c with
  | st => exact absurd hst hc
  | _ => exact h _ hc

theorem exec_ldXDt (x : Reg) (s : State) : exec (.ldXDt x) s = .next (s.advance.setReg x s.dt) := rfl

theorem exec_ldDtX (x : Reg) (s : State) : exec (.ldDtX x) s = .next (s.advance.setDt (s.reg x)) := rfl

theorem exec_ldStX (x : Reg) (s : State) : exec (.ldStX x) s = .next (s.advance.setSt (s.reg x)) := rfl

end Sys2Proof.Machine
end

section
namespace Sys2Proof.Machine

/-- Settles O48: each of the three is the advance and one write; the tick comes after it, so `FX07` reads `DT` before
the tick, and `FX15` and `FX18` leave one less than they wrote. -/
theorem timersAreReadAndWritten : Obligations.TimersAreReadAndWritten := by
  refine ⟨encodedAs_of_mem (r := rowX 0xF007#16 .ldXDt) (by simp [opcodeMap, opcodeMapHigh]),
    encodedAs_of_mem (r := rowX 0xF015#16 .ldDtX) (by simp [opcodeMap, opcodeMapHigh]),
    encodedAs_of_mem (r := rowX 0xF018#16 .ldStX) (by simp [opcodeMap, opcodeMapHigh]),
    fun x s => ⟨?readDt, ?writeDt, ?writeSt, fun w hs hf hd => ?stepReadDt, fun w hs hf hd => ?stepWriteDt,
      fun w hs hf hd => ?stepWriteSt⟩⟩
  case readDt =>
    exact ⟨_, exec_ldXDt x s, rfl, by simp, (sameBut_advance s (by simp)).setReg (by simp) _⟩
  case writeDt =>
    exact ⟨_, exec_ldDtX x s, rfl, rfl, (sameBut_advance s (by simp)).setDt (by simp) _⟩
  case writeSt =>
    exact ⟨_, exec_ldStX x s, rfl, rfl, (sameBut_advance s (by simp)).setSt (by simp) _⟩
  case stepReadDt =>
    exact ⟨_, step_eq_tickTimers hs hf hd (exec_ldXDt x s) rfl, by simp, tick_toNat s.dt⟩
  case stepWriteDt =>
    exact ⟨_, step_eq_tickTimers hs hf hd (exec_ldDtX x s) rfl, tick_toNat (s.reg x)⟩
  case stepWriteSt =>
    exact ⟨_, step_eq_tickTimers hs hf hd (exec_ldStX x s) rfl, tick_toNat (s.reg x)⟩

end Sys2Proof.Machine
end

section
/-! SUPPORT. The host's moves (spec/60_exceptions.md R262 to R265): a rejected one changes nothing, an accepted one
writes one component. -/

namespace Sys2Proof.Machine

/-- A rejected host move changes nothing (R262). -/
theorem applyMove_host_of_error {m : HostMove} {s : State} {e : HostError} (h : hostMove m s = .error e) :
    applyMove (.host m) s = s := by
  simp [applyMove, h]

/-- A write of memory leaves every other component as it was. -/
theorem sameBut_setMem (s : State) (m : Memory) : SameBut [.mem] s (s.setMem m) := by
  intro c hc
  cases c with
  | mem => exact absurd (List.mem_singleton_self _) hc
  | _ => rfl

/-- A write of the key levels leaves every other component as it was. -/
theorem sameBut_setKeys (s : State) (k : Vector Bool 16) : SameBut [.keys] s (s.setKeys k) := by
  intro c hc
  cases c with
  | keys => exact absurd (List.mem_singleton_self _) hc
  | mem => exact fun _ => rfl
  | _ => rfl

/-- Byte `j` of a written string that stays within memory reads back at `a + j`. -/
theorem readByte_memSetMany_getElem (m : Memory) {a j : Nat} {bs : List Byte} (ha : a + bs.length ≤ 0x1000)
    (hj : j < bs.length) : readByte (memSetMany m a bs) (BitVec.ofNat 16 (a + j)) = .ok bs[j] := by
  have haddr : (BitVec.ofNat 16 (a + j)).toNat = a + j := by
    rw [BitVec.toNat_ofNat]
    exact Nat.mod_eq_of_lt (by omega)
  rw [readByte_ok (by omega), memGet_memSetMany, dif_pos (by omega)]
  simp [haddr]

/-- An address below or above the written string reads as before. -/
theorem readByte_memSetMany_outside (m : Memory) {a : Nat} {bs : List Byte} {k : Addr}
    (hk : k.toNat < a ∨ a + bs.length ≤ k.toNat) : readByte (memSetMany m a bs) k = readByte m k :=
  readByte_congr (by rw [memGet_memSetMany, dif_neg (by omega)])

/-- The named key holds the level written to it (R264). -/
theorem keyIsDown_set_same (s : State) {key : Nat} (h : key < 16) (down : Bool) :
    keyIsDown (s.setKeys (s.keys.set key down h)) key ↔ down = true := by
  simp [keyIsDown, h]

/-- Every other key keeps its level (R264). -/
theorem keyIsDown_set_ne (s : State) {key k : Nat} (h : key < 16) (down : Bool) (hk : k ≠ key) :
    keyIsDown (s.setKeys (s.keys.set key down h)) k ↔ keyIsDown s k := by
  simp [keyIsDown, hk.symm]

theorem setKey_ok {key : Nat} (h : key < 16) (down : Bool) (s : State) :
    setKey key down s = .ok (s.setKeys (s.keys.set key down h)) := dif_pos h

theorem setKey_invalid {key : Nat} (h : 16 ≤ key) (down : Bool) (s : State) :
    setKey key down s = .error .invalidKeyIndex := dif_neg (Nat.not_lt.2 h)

end Sys2Proof.Machine
end

section
namespace Sys2Proof.Machine

/-- Settles O54: an accepted load is one write of memory, of the image at 0x200. -/
theorem loadProgramCopiesTheImage : Obligations.LoadProgramCopiesTheImage := by
  intro bytes s
  obtain ⟨hfits, hok⟩ | ⟨hlong, herr⟩ := loadProgram_cases bytes s
  · exact ⟨fun _ => ⟨_, hok, fun _ hj => readByte_memSetMany_getElem s.mem (by omega) hj,
      fun _ ha => readByte_memSetMany_outside s.mem ha, sameBut_setMem s _⟩, fun hlong => by omega⟩
  · exact ⟨fun hfits => by omega, fun _ => ⟨herr, applyMove_host_of_error herr⟩⟩

/-- Settles O56: with a valid index each move is one write of that key's level; with another it is rejected. -/
theorem keyMovesSetOneLevel : Obligations.KeyMovesSetOneLevel := by
  refine fun key s => ⟨fun h => ?down, fun h => ?up, fun h => ?rejected⟩
  case down =>
    exact ⟨_, setKey_ok h true s, (keyIsDown_set_same s h true).2 rfl, fun _ => keyIsDown_set_ne s h true,
      sameBut_setKeys s _⟩
  case up =>
    exact ⟨_, setKey_ok h false s, fun hd => Bool.false_ne_true ((keyIsDown_set_same s h false).1 hd),
      fun _ => keyIsDown_set_ne s h false, sameBut_setKeys s _⟩
  case rejected =>
    have hdown : hostMove (.keyDown key) s = .error .invalidKeyIndex := setKey_invalid h true s
    have hup : hostMove (.keyUp key) s = .error .invalidKeyIndex := setKey_invalid h false s
    exact ⟨hdown, hup, applyMove_host_of_error hdown, applyMove_host_of_error hup⟩

end Sys2Proof.Machine
end

section
/-! SUPPORT. Decoding against encoding (spec/30_encoding.md R92 to R100): a word is its fields put together again, and a
row of the opcode map selects it by its class and, where the row fixes one, its function code. -/

namespace Sys2Proof

/-- The opcode class, bits 15 to 12 (R92). -/
def opClass (w : Word) : Nibble := w.extractLsb' 12 4

/-! ### a word is its fields put together again -/

theorem encXNN_fields (w : Word) : encXNN (opClass w) (fieldX w) (fieldNN w) = w := by
  apply word_ext
  intro k hk
  have hx : (BitVec.ofFin (w := 4) (fieldX w)) = w.extractLsb' 8 4 := rfl
  rw [encXNN_bit, hx]
  split
  · simp [fieldNN, *]
  · split
    · simp [show k - 8 < 4 by omega, show 8 + (k - 8) = k by omega]
    · simp [opClass, show k - 12 < 4 by omega, show 12 + (k - 12) = k by omega]

theorem encNNN_fields (w : Word) : encNNN (opClass w) (fieldNNN w) = w := by
  apply word_ext
  intro k hk
  rw [encNNN_bit]
  split
  · simp [fieldNNN, *]
  · simp [opClass, show k - 12 < 4 by omega, show 12 + (k - 12) = k by omega]

theorem encXYN_fields (w : Word) : encXYN (opClass w) (fieldX w) (fieldY w) (fieldN w) = w := by
  have hNN : BitVec.ofFin (w := 4) (fieldY w) ++ fieldN w = fieldNN w :=
    BitVec.eq_of_toNat_eq <| by
      have hn : (fieldN w).toNat < 2 ^ 4 := (fieldN w).isLt
      rw [fieldNN_eq_fieldY_fieldN, BitVec.toNat_append, Nat.shiftLeft_eq, Nat.mul_comm,
        ← Nat.two_pow_add_eq_or_of_lt hn]
      rfl
  rw [encXYN_eq, hNN, encXNN_fields]

theorem opClass_encXNN (c : Nibble) (x : Reg) (nn : Byte) : opClass (encXNN c x nn) = c := by
  apply BitVec.eq_of_getLsbD_eq
  intro k hk
  simp [opClass, encXNN_bit, hk, show ¬12 + k < 8 by omega]

theorem opClass_encNNN (c : Nibble) (nnn : Imm12) : opClass (encNNN c nnn) = c := by
  apply BitVec.eq_of_getLsbD_eq
  intro k hk
  simp [opClass, encNNN_bit, hk]

theorem opClass_encXYN (c : Nibble) (x y : Reg) (n : Nibble) : opClass (encXYN c x y n) = c := by
  rw [encXYN_eq, opClass_encXNN]

/-! ### which words a row selects -/

section rows
variable {w v : Word}

theorem and_F000_eq_iff (hv : encNNN (opClass v) 0 = v) : w &&& 0xF000#16 = v ↔ opClass w = opClass v := by
  rw [← encNNN_fields w, encNNN_mask, opClass_encNNN]
  exact ⟨fun h => by rw [← h, opClass_encNNN], fun h => by rw [h, hv]⟩

theorem and_F0FF_eq_iff (hv : encXNN (opClass v) 0 (fieldNN v) = v) :
    w &&& 0xF0FF#16 = v ↔ opClass w = opClass v ∧ fieldNN w = fieldNN v := by
  rw [← encXNN_fields w, encX_mask, opClass_encXNN, fieldNN_encXNN]
  constructor
  · rintro h
    rw [← h, opClass_encXNN, fieldNN_encXNN]
    exact ⟨rfl, rfl⟩
  · rintro ⟨hc, hnn⟩
    rw [hc, hnn, hv]

theorem and_F00F_eq_iff (hv : encXYN (opClass v) 0 0 (fieldN v) = v) :
    w &&& 0xF00F#16 = v ↔ opClass w = opClass v ∧ fieldN w = fieldN v := by
  rw [← encXYN_fields w, encXY_mask, opClass_encXYN, fieldN_encXYN]
  constructor
  · rintro h
    rw [← h, opClass_encXYN, fieldN_encXYN]
    exact ⟨rfl, rfl⟩
  · rintro ⟨hc, hn⟩
    rw [hc, hn, hv]

theorem rowOP_selects {i : Instr} : (rowOP v i).selects w = true ↔ w = v := by
  rw [OpcodeRow.selects, beq_iff_eq]
  exact Eq.congr_left (BitVec.and_allOnes (x := w))

theorem rowNNN_selects {mk : Imm12 → Instr} (hv : encNNN (opClass v) 0 = v) :
    (rowNNN v mk).selects w = true ↔ opClass w = opClass v := beq_iff_eq.trans (and_F000_eq_iff hv)

theorem rowXNN_selects {mk : Reg → Byte → Instr} (hv : encNNN (opClass v) 0 = v) :
    (rowXNN v mk).selects w = true ↔ opClass w = opClass v := beq_iff_eq.trans (and_F000_eq_iff hv)

theorem rowXYN_selects {mk : Reg → Reg → Nibble → Instr} (hv : encNNN (opClass v) 0 = v) :
    (rowXYN v mk).selects w = true ↔ opClass w = opClass v := beq_iff_eq.trans (and_F000_eq_iff hv)

theorem rowX_selects {mk : Reg → Instr} (hv : encXNN (opClass v) 0 (fieldNN v) = v) :
    (rowX v mk).selects w = true ↔ opClass w = opClass v ∧ fieldNN w = fieldNN v :=
  beq_iff_eq.trans (and_F0FF_eq_iff hv)

theorem rowXY_selects {mk : Reg → Reg → Instr} (hv : encXYN (opClass v) 0 0 (fieldN v) = v) :
    (rowXY v mk).selects w = true ↔ opClass w = opClass v ∧ fieldN w = fieldN v :=
  beq_iff_eq.trans (and_F00F_eq_iff hv)

end rows

/-! ### what a word decodes to -/

/-- Everything decoding can answer (R95, R97): the instruction of a row that selects the word, or `UNIMPL` when none
does. -/
theorem decodeWord_cases (w : Word) :
    (∃ r ∈ opcodeMap, r.selects w = true ∧ decodeWord w = r.build w) ∨
    ((∀ r ∈ opcodeMap, r.selects w = false) ∧ decodeWord w = .unimpl w) := by
  by_cases h : ∃ r ∈ opcodeMap, r.selects w = true
  · obtain ⟨r, hr, hw⟩ := h
    exact .inl ⟨r, hr, hw, decodeWord_of_selects hr hw⟩
  · have hnone : ∀ r ∈ opcodeMap, r.selects w = false := fun r hr => by
      by_contra hw
      exact h ⟨r, hr, by simpa using hw⟩
    exact .inr ⟨hnone, decodeWord_of_none hnone⟩

section formats
variable {v : Word}

/-! One lemma per format of R92: a row decodes every word of its format to its own instruction. -/

theorem decodeWord_encNNN {mk : Imm12 → Instr} (hr : rowNNN v mk ∈ opcodeMap) (hv : encNNN (opClass v) 0 = v)
    (nnn : Imm12) : decodeWord (encNNN (opClass v) nnn) = mk nnn := by
  rw [decodeWord_of_selects hr ((rowNNN_selects hv).2 (opClass_encNNN _ nnn))]
  exact congrArg mk (fieldNNN_encNNN _ nnn)

theorem decodeWord_encXNN {mk : Reg → Byte → Instr} (hr : rowXNN v mk ∈ opcodeMap) (hv : encNNN (opClass v) 0 = v)
    (x : Reg) (nn : Byte) : decodeWord (encXNN (opClass v) x nn) = mk x nn := by
  rw [decodeWord_of_selects hr ((rowXNN_selects hv).2 (opClass_encXNN _ x nn))]
  exact congrArg₂ mk (fieldX_encXNN _ x nn) (fieldNN_encXNN _ x nn)

theorem decodeWord_encX {mk : Reg → Instr} (hr : rowX v mk ∈ opcodeMap)
    (hv : encXNN (opClass v) 0 (fieldNN v) = v) (x : Reg) :
    decodeWord (encXNN (opClass v) x (fieldNN v)) = mk x := by
  rw [decodeWord_of_selects hr ((rowX_selects hv).2 ⟨opClass_encXNN _ x _, fieldNN_encXNN _ x _⟩)]
  exact congrArg mk (fieldX_encXNN _ x _)

theorem decodeWord_encXY {mk : Reg → Reg → Instr} (hr : rowXY v mk ∈ opcodeMap)
    (hv : encXYN (opClass v) 0 0 (fieldN v) = v) (x y : Reg) :
    decodeWord (encXYN (opClass v) x y (fieldN v)) = mk x y := by
  rw [decodeWord_of_selects hr ((rowXY_selects hv).2 ⟨opClass_encXYN _ x y _, fieldN_encXYN _ x y _⟩)]
  exact congrArg₂ mk (fieldX_encXYN _ x y _) (fieldY_encXYN _ x y _)

theorem decodeWord_encXYN {mk : Reg → Reg → Nibble → Instr} (hr : rowXYN v mk ∈ opcodeMap)
    (hv : encNNN (opClass v) 0 = v) (x y : Reg) (n : Nibble) : decodeWord (encXYN (opClass v) x y n) = mk x y n := by
  rw [decodeWord_of_selects hr ((rowXYN_selects hv).2 (opClass_encXYN _ x y n))]
  simp only [rowXYN, fieldX_encXYN, fieldY_encXYN, fieldN_encXYN]

end formats

end Sys2Proof
end

section
namespace Sys2Proof

open Machine (unrecognized)

/-- An instruction with a row of its own is what its word decodes to: the one lemma of its format. -/
theorem decodeWord_encode {i : Instr} (h : ∀ w, i ≠ .unimpl w) : decodeWord (encode i) = i := by
  cases i with
  | cls =>
    exact decodeWord_of_selects (r := rowOP 0x00E0#16 .cls) (by simp [opcodeMap, opcodeMapLow]) (rowOP_selects.2 rfl)
  | ret =>
    exact decodeWord_of_selects (r := rowOP 0x00EE#16 .ret) (by simp [opcodeMap, opcodeMapLow]) (rowOP_selects.2 rfl)
  | jp nnn => exact decodeWord_encNNN (v := 0x1000#16) (by simp [opcodeMap, opcodeMapLow]) rfl nnn
  | call nnn => exact decodeWord_encNNN (v := 0x2000#16) (by simp [opcodeMap, opcodeMapLow]) rfl nnn
  | seXNN x nn => exact decodeWord_encXNN (v := 0x3000#16) (by simp [opcodeMap, opcodeMapLow]) rfl x nn
  | sneXNN x nn => exact decodeWord_encXNN (v := 0x4000#16) (by simp [opcodeMap, opcodeMapLow]) rfl x nn
  | seXY x y => exact decodeWord_encXY (v := 0x5000#16) (by simp [opcodeMap, opcodeMapLow]) rfl x y
  | ldXNN x nn => exact decodeWord_encXNN (v := 0x6000#16) (by simp [opcodeMap, opcodeMapLow]) rfl x nn
  | addXNN x nn => exact decodeWord_encXNN (v := 0x7000#16) (by simp [opcodeMap, opcodeMapLow]) rfl x nn
  | ldXY x y => exact decodeWord_encXY (v := 0x8000#16) (by simp [opcodeMap, opcodeMapMid]) rfl x y
  | orXY x y => exact decodeWord_encXY (v := 0x8001#16) (by simp [opcodeMap, opcodeMapMid]) rfl x y
  | andXY x y => exact decodeWord_encXY (v := 0x8002#16) (by simp [opcodeMap, opcodeMapMid]) rfl x y
  | xorXY x y => exact decodeWord_encXY (v := 0x8003#16) (by simp [opcodeMap, opcodeMapMid]) rfl x y
  | addXY x y => exact decodeWord_encXY (v := 0x8004#16) (by simp [opcodeMap, opcodeMapMid]) rfl x y
  | sub x y => exact decodeWord_encXY (v := 0x8005#16) (by simp [opcodeMap, opcodeMapMid]) rfl x y
  | shr x y => exact decodeWord_encXY (v := 0x8006#16) (by simp [opcodeMap, opcodeMapMid]) rfl x y
  | subn x y => exact decodeWord_encXY (v := 0x8007#16) (by simp [opcodeMap, opcodeMapMid]) rfl x y
  | shl x y => exact decodeWord_encXY (v := 0x800E#16) (by simp [opcodeMap, opcodeMapMid]) rfl x y
  | sneXY x y => exact decodeWord_encXY (v := 0x9000#16) (by simp [opcodeMap, opcodeMapMid]) rfl x y
  | ldI nnn => exact decodeWord_encNNN (v := 0xA000#16) (by simp [opcodeMap, opcodeMapHigh]) rfl nnn
  | jpV0 nnn => exact decodeWord_encNNN (v := 0xB000#16) (by simp [opcodeMap, opcodeMapHigh]) rfl nnn
  | rnd x nn => exact decodeWord_encXNN (v := 0xC000#16) (by simp [opcodeMap, opcodeMapHigh]) rfl x nn
  | drw x y n => exact decodeWord_encXYN (v := 0xD000#16) (by simp [opcodeMap, opcodeMapHigh]) rfl x y n
  | skp x => exact decodeWord_encX (v := 0xE09E#16) (by simp [opcodeMap, opcodeMapHigh]) rfl x
  | sknp x => exact decodeWord_encX (v := 0xE0A1#16) (by simp [opcodeMap, opcodeMapHigh]) rfl x
  | ldXDt x => exact decodeWord_encX (v := 0xF007#16) (by simp [opcodeMap, opcodeMapHigh]) rfl x
  | ldXK x => exact decodeWord_encX (v := 0xF00A#16) (by simp [opcodeMap, opcodeMapHigh]) rfl x
  | ldDtX x => exact decodeWord_encX (v := 0xF015#16) (by simp [opcodeMap, opcodeMapHigh]) rfl x
  | ldStX x => exact decodeWord_encX (v := 0xF018#16) (by simp [opcodeMap, opcodeMapHigh]) rfl x
  | addIX x => exact decodeWord_encX (v := 0xF01E#16) (by simp [opcodeMap, opcodeMapHigh]) rfl x
  | ldFX x => exact decodeWord_encX (v := 0xF029#16) (by simp [opcodeMap, opcodeMapHigh]) rfl x
  | ldBX x => exact decodeWord_encX (v := 0xF033#16) (by simp [opcodeMap, opcodeMapHigh]) rfl x
  | stRegs x => exact decodeWord_encX (v := 0xF055#16) (by simp [opcodeMap, opcodeMapHigh]) rfl x
  | ldRegs x => exact decodeWord_encX (v := 0xF065#16) (by simp [opcodeMap, opcodeMapHigh]) rfl x
  | unimpl w => exact absurd rfl (h w)

/-! ### encoding undoes decoding -/

/-- A row whose instruction, built from a word the row selects, has that word. -/
def OpcodeRow.Encodes (r : OpcodeRow) : Prop := ∀ w, r.selects w = true → encode (r.build w) = w

section rows
variable {v : Word}

theorem rowOP_encodes {i : Instr} (he : encode i = v) : (rowOP v i).Encodes :=
  fun _ hw => he.trans (rowOP_selects.1 hw).symm

theorem rowNNN_encodes {mk : Imm12 → Instr} (hv : encNNN (opClass v) 0 = v)
    (he : ∀ nnn, encode (mk nnn) = encNNN (opClass v) nnn) : (rowNNN v mk).Encodes :=
  fun w hw => by rw [rowNNN, he, ← (rowNNN_selects hv).1 hw, encNNN_fields]

theorem rowXNN_encodes {mk : Reg → Byte → Instr} (hv : encNNN (opClass v) 0 = v)
    (he : ∀ x nn, encode (mk x nn) = encXNN (opClass v) x nn) : (rowXNN v mk).Encodes :=
  fun w hw => by rw [rowXNN, he, ← (rowXNN_selects hv).1 hw, encXNN_fields]

theorem rowXYN_encodes {mk : Reg → Reg → Nibble → Instr} (hv : encNNN (opClass v) 0 = v)
    (he : ∀ x y n, encode (mk x y n) = encXYN (opClass v) x y n) : (rowXYN v mk).Encodes :=
  fun w hw => by rw [rowXYN, he, ← (rowXYN_selects hv).1 hw, encXYN_fields]

theorem rowX_encodes {mk : Reg → Instr} (hv : encXNN (opClass v) 0 (fieldNN v) = v)
    (he : ∀ x, encode (mk x) = encXNN (opClass v) x (fieldNN v)) : (rowX v mk).Encodes := fun w hw => by
  obtain ⟨hc, hnn⟩ := (rowX_selects hv).1 hw
  rw [rowX, he, ← hc, ← hnn, encXNN_fields]

theorem rowXY_encodes {mk : Reg → Reg → Instr} (hv : encXYN (opClass v) 0 0 (fieldN v) = v)
    (he : ∀ x y, encode (mk x y) = encXYN (opClass v) x y (fieldN v)) : (rowXY v mk).Encodes := fun w hw => by
  obtain ⟨hc, hn⟩ := (rowXY_selects hv).1 hw
  rw [rowXY, he, ← hc, ← hn, encXYN_fields]

end rows

theorem opcodeMapLow_encodes : ∀ r ∈ opcodeMapLow, r.Encodes := by
  simp only [opcodeMapLow, List.forall_mem_cons]
  exact ⟨rowOP_encodes rfl, rowOP_encodes rfl, rowNNN_encodes rfl fun _ => rfl, rowNNN_encodes rfl fun _ => rfl,
    rowXNN_encodes rfl fun _ _ => rfl, rowXNN_encodes rfl fun _ _ => rfl, rowXY_encodes rfl fun _ _ => rfl,
    rowXNN_encodes rfl fun _ _ => rfl, rowXNN_encodes rfl fun _ _ => rfl, List.forall_mem_nil _⟩

theorem opcodeMapMid_encodes : ∀ r ∈ opcodeMapMid, r.Encodes := by
  simp only [opcodeMapMid, List.forall_mem_cons]
  exact ⟨rowXY_encodes rfl fun _ _ => rfl, rowXY_encodes rfl fun _ _ => rfl, rowXY_encodes rfl fun _ _ => rfl,
    rowXY_encodes rfl fun _ _ => rfl, rowXY_encodes rfl fun _ _ => rfl, rowXY_encodes rfl fun _ _ => rfl,
    rowXY_encodes rfl fun _ _ => rfl, rowXY_encodes rfl fun _ _ => rfl, rowXY_encodes rfl fun _ _ => rfl,
    rowXY_encodes rfl fun _ _ => rfl, List.forall_mem_nil _⟩

theorem opcodeMapHigh_encodes : ∀ r ∈ opcodeMapHigh, r.Encodes := by
  simp only [opcodeMapHigh, List.forall_mem_cons]
  exact ⟨rowNNN_encodes rfl fun _ => rfl, rowNNN_encodes rfl fun _ => rfl, rowXNN_encodes rfl fun _ _ => rfl,
    rowXYN_encodes rfl fun _ _ _ => rfl, rowX_encodes rfl fun _ => rfl, rowX_encodes rfl fun _ => rfl,
    rowX_encodes rfl fun _ => rfl, rowX_encodes rfl fun _ => rfl, rowX_encodes rfl fun _ => rfl,
    rowX_encodes rfl fun _ => rfl, rowX_encodes rfl fun _ => rfl, rowX_encodes rfl fun _ => rfl,
    rowX_encodes rfl fun _ => rfl, rowX_encodes rfl fun _ => rfl, rowX_encodes rfl fun _ => rfl, List.forall_mem_nil _⟩

theorem encodes_of_mem_opcodeMap {r : OpcodeRow} (hr : r ∈ opcodeMap) : r.Encodes := by
  rw [opcodeMap, List.mem_append, List.mem_append] at hr
  obtain (hlow | hmid) | hhigh := hr
  · exact opcodeMapLow_encodes r hlow
  · exact opcodeMapMid_encodes r hmid
  · exact opcodeMapHigh_encodes r hhigh

/-- Settles O2: the row that selects a word gives back its class, its fields and its function code. -/
theorem encodeOfDecodeIsIdentity : Obligations.EncodeOfDecodeIsIdentity := by
  intro w
  obtain ⟨r, hr, hw, hd⟩ | ⟨-, hd⟩ := decodeWord_cases w
  · rw [hd, encodes_of_mem_opcodeMap hr w hw]
  · rw [hd, encode]

/-- Only the word of an instruction decodes to it. -/
theorem eq_encode_of_decodeWord {w : Word} {i : Instr} (h : decodeWord w = i) : w = encode i :=
  h ▸ (encodeOfDecodeIsIdentity w).symm

/-! ### the unrecognised space -/

/-- The function codes of class 8 in R100 are those that no row of that class has. -/
theorem unassigned_class_8 : ∀ n : Nibble, [0x8#4, 0x9#4, 0xA#4, 0xB#4, 0xC#4, 0xD#4, 0xF#4].contains n = true ↔
    n ≠ 0x0#4 ∧ n ≠ 0x1#4 ∧ n ≠ 0x2#4 ∧ n ≠ 0x3#4 ∧ n ≠ 0x4#4 ∧ n ≠ 0x5#4 ∧ n ≠ 0x6#4 ∧ n ≠ 0x7#4 ∧ n ≠ 0xE#4 := by
  decide

/-- R100 lists by class what the rows of R96 leave over. -/
theorem unrecognized_iff_none_selects (w : Word) :
    unrecognized w = true ↔ ∀ r ∈ opcodeMap, r.selects w = false := by
  simp (disch := decide) only [opcodeMap, opcodeMapLow, opcodeMapMid, opcodeMapHigh, List.forall_mem_append,
    List.forall_mem_cons, ← Bool.not_eq_true, rowOP_selects, rowNNN_selects, rowXNN_selects, rowXYN_selects,
    rowX_selects, rowXY_selects, opClass, fieldN, fieldNN]
  by_cases h0 : w.extractLsb' 12 4 = 0x0#4
  · simp [unrecognized, h0]
  have hcls : w ≠ 0x00E0#16 := fun h => h0 (h ▸ rfl)
  have hret : w ≠ 0x00EE#16 := fun h => h0 (h ▸ rfl)
  by_cases h8 : w.extractLsb' 12 4 = 0x8#4
  · simpa [unrecognized, h8, hcls, hret] using unassigned_class_8 (w.extractLsb' 0 4)
  obtain ⟨k, hk, hc⟩ : ∃ k < 16, w.extractLsb' 12 4 = BitVec.ofNat 4 k :=
    ⟨_, (opClass w).isLt, by rw [BitVec.ofNat_toNat, BitVec.setWidth_eq, opClass]⟩
  interval_cases k <;> simp_all [unrecognized]

theorem build_wellFormed {r : OpcodeRow} (hr : r ∈ opcodeMap) (w : Word) : (r.build w).wellFormed = true := by
  revert r
  simp [opcodeMap, opcodeMapLow, opcodeMapMid, opcodeMapHigh, rowOP, rowNNN, rowXNN, rowXY, rowXYN, rowX,
    Instr.wellFormed]

theorem decodeWord_wellFormed (w : Word) : (decodeWord w).wellFormed = true := by
  obtain ⟨r, hr, -, hd⟩ | ⟨hnone, hd⟩ := decodeWord_cases w
  · rw [hd]
    exact build_wellFormed hr w
  · rw [hd]
    exact (unrecognized_iff_none_selects w).2 hnone

/-- Settles O3: the words that no row selects are those of R100, and these alone decode to `UNIMPL`. -/
theorem unrecognizedSpaceIsUnimpl : Obligations.UnrecognizedSpaceIsUnimpl := by
  refine fun w => ⟨⟨fun h => ?_, fun h => ?_⟩, decodeWord_wellFormed w⟩
  · exact decodeWord_of_none ((unrecognized_iff_none_selects w).1 h)
  · have hwf := decodeWord_wellFormed w
    rwa [h] at hwf

/-- Settles O1: the two bytes are the word again, and the word decodes by the lemma of its format or, for `UNIMPL`,
because no row selects it. -/
theorem decodeOfEncodeIsIdentity : Obligations.DecodeOfEncodeIsIdentity := by
  intro i hwf
  have hword : decodeWord (encode i) = i := by
    by_cases hu : ∃ w, i = .unimpl w
    · obtain ⟨w, rfl⟩ := hu
      exact (unrecognizedSpaceIsUnimpl w).1.1 hwf
    · exact decodeWord_encode fun w e => hu ⟨w, e⟩
  rw [bytesOfWord, decodeBytes, wordOfBytes_bytesOfWord, hword]

/-- Settles O4: two rows that both select a word would not be apart. -/
theorem noWordMatchesTwoRows : Obligations.NoWordMatchesTwoRows := by
  refine ⟨rfl, fun w => ?_⟩
  have hapart : (opcodeMap.filter (·.selects w)).Pairwise OpcodeRow.Apart := opcodeMap_apart.filter _
  have hsel : ∀ r ∈ opcodeMap.filter (·.selects w), r.selects w = true := fun r hr => (List.mem_filter.1 hr).2
  generalize opcodeMap.filter (·.selects w) = l at hapart hsel ⊢
  match l with
  | [] | [_] => simp
  | r :: q :: l =>
    have hrq : r.Apart q := List.rel_of_pairwise_cons hapart (by simp)
    exact (hrq.not_both (hsel r (by simp)) (hsel q (by simp))).elim

/-- Settles O6: the decoder run on each of the thirteen words. -/
theorem exampleWordsDecode : Obligations.ExampleWordsDecode := by
  unfold Obligations.ExampleWordsDecode
  decide

end Sys2Proof
end

section
/-! SUPPORT. Frames (spec/40_step_cycle.md R130): how they compose, and what each write of the state adds to one. -/

namespace Sys2Proof.Machine

theorem Same.refl (c : Component) (s : State) : Same c s s := by
  cases c with
  | mem => exact fun _ => rfl
  | _ => rfl

theorem Same.trans {c : Component} {s t u : State} (h : Same c s t) (h' : Same c t u) : Same c s u := by
  cases c with
  | mem => exact fun a => (h' a).trans (h a)
  | _ => exact Eq.trans h' h

theorem SameBut.refl (cs : List Component) (s : State) : SameBut cs s s := fun c _ => Same.refl c s

section
variable {cs : List Component} {s t : State}

theorem SameBut.trans {u : State} (h : SameBut cs s t) (h' : SameBut cs t u) : SameBut cs s u :=
  fun c hc => (h c hc).trans (h' c hc)

theorem SameBut.mono {ds : List Component} (h : SameBut cs s t) (hsub : cs ⊆ ds) : SameBut ds s t :=
  fun c hc => h c fun hm => hc (hsub hm)

theorem SameBut.setPc (h : SameBut cs s t) (hpc : .pc ∈ cs) (a : Addr) : SameBut cs s (t.setPc a) :=
  h.trans ((sameBut_setPc t a).mono (by simpa using hpc))

theorem SameBut.setMem (h : SameBut cs s t) (hmem : .mem ∈ cs) (m : Memory) : SameBut cs s (t.setMem m) :=
  h.trans ((sameBut_setMem t m).mono (by simpa using hmem))

theorem SameBut.setI (h : SameBut cs s t) (hi : .i ∈ cs) (a : Addr) : SameBut cs s (t.setI a) := by
  intro c hc
  cases c with
  | i => exact absurd hi hc
  | _ => exact h _ hc

theorem SameBut.setFb (h : SameBut cs s t) (hfb : .fb ∈ cs) (g : Grid) : SameBut cs s (t.setFb g) := by
  intro c hc
  cases c with
  | fb => exact absurd hfb hc
  | _ => exact h _ hc

theorem SameBut.setStack (h : SameBut cs s t) (hstack : .stack ∈ cs) (l : List Addr) :
    SameBut cs s (t.setStack l) := by
  intro c hc
  cases c with
  | stack => exact absurd hstack hc
  | _ => exact h _ hc

theorem SameBut.drawn (h : SameBut cs s t) (hrnd : .rndCount ∈ cs) : SameBut cs s t.drawn := by
  intro c hc
  cases c with
  | rndCount => exact absurd hrnd hc
  | _ => exact h _ hc

theorem SameBut.report (h : SameBut cs s t) (hrep : .reports ∈ cs) (p : Addr) (w : Word) :
    SameBut cs s (t.report p w) := by
  intro c hc
  cases c with
  | reports => exact absurd hrep hc
  | _ => exact h _ hc

/-- A load of registers stays within a frame that lists every register it reaches. -/
theorem SameBut.loadRegs (h : SameBut cs s t) {bs : List Byte} (hbs : ∀ r : Reg, r.val < bs.length → .reg r ∈ cs) :
    SameBut cs s (t.loadRegs bs) := by
  intro c hc
  cases c with
  | reg r =>
    have hr : ¬r.val < bs.length := fun hlt => hc (hbs r hlt)
    exact (State.loadRegs_reg t bs r).trans ((dif_neg hr).trans (h _ hc))
  | _ => exact h _ hc

theorem SameBut.tickTimers (h : SameBut cs s t) (hdt : .dt ∈ cs) (hst : .st ∈ cs) : SameBut cs s t.tickTimers :=
  (h.setDt hdt _).setSt hst _

end

end Sys2Proof.Machine
end

section
/-! SUPPORT. Each remaining instruction as the writes it makes (spec/41_control_flow.md to spec/45_keypad_timers.md). A
memory instruction has one equation for valid accesses and shares one for the fault. -/

namespace Sys2Proof.Machine

variable (s : State)

theorem exec_cls : exec .cls s = .next (s.advance.setFb clearGrid) := rfl

theorem exec_call (nnn : Imm12) :
    exec (.call nnn) s = .next ((s.setStack (s.stack ++ [s.pc + 2])).setPc (addrOfImm nnn)) := rfl

theorem exec_ret_of_stack {rest : List Addr} {a : Addr} (h : s.stack = rest ++ [a]) :
    exec .ret s = .next ((s.setStack rest).setPc a) := by
  simp [exec, execRet, h]

theorem exec_ret_of_empty (h : s.stack = []) : exec .ret s = .next (s.setFault (some .stackUnderflow)) := by
  simp [exec, execRet, h]

theorem exec_ldXNN (x : Reg) (nn : Byte) : exec (.ldXNN x nn) s = .next (s.advance.setReg x nn) := rfl

theorem exec_ldXY (x y : Reg) : exec (.ldXY x y) s = .next (s.advance.setReg x (s.reg y)) := rfl

theorem exec_orXY (x y : Reg) : exec (.orXY x y) s = .next (s.advance.setReg x (s.reg x ||| s.reg y)) := rfl

theorem exec_andXY (x y : Reg) : exec (.andXY x y) s = .next (s.advance.setReg x (s.reg x &&& s.reg y)) := rfl

theorem exec_xorXY (x y : Reg) : exec (.xorXY x y) s = .next (s.advance.setReg x (s.reg x ^^^ s.reg y)) := rfl

/-- The state after the advance and the write of the flag, from which R160 computes the result. -/
def State.flagged (c : Bool) : State := s.advance.setReg regF (flagByte c)

theorem exec_sub (x y : Reg) : exec (.sub x y) s = .next (
    let mid := s.flagged (noBorrow (s.reg x) (s.reg y)); mid.setReg x (mid.reg x - mid.reg y)) := rfl

theorem exec_subn (x y : Reg) : exec (.subn x y) s = .next (
    let mid := s.flagged (noBorrow (s.reg y) (s.reg x)); mid.setReg x (mid.reg y - mid.reg x)) := rfl

theorem exec_shr (x y : Reg) : exec (.shr x y) s = .next (
    let mid := s.flagged (shiftedOutRight (s.reg y)); mid.setReg x (mid.reg y >>> 1)) := rfl

theorem exec_shl (x y : Reg) : exec (.shl x y) s = .next (
    let mid := s.flagged (shiftedOutLeft (s.reg y)); mid.setReg x (mid.reg y <<< 1)) := rfl

theorem exec_rnd (x : Reg) (nn : Byte) :
    exec (.rnd x nn) s = .next (s.advance.drawn.setReg x (Config.randomByte s.rndCount &&& nn)) := rfl

theorem exec_ldI (nnn : Imm12) : exec (.ldI nnn) s = .next (s.advance.setI (addrOfImm nnn)) := rfl

theorem exec_addIX (x : Reg) : exec (.addIX x) s = .next (s.advance.setI (s.i + addrOfByte (s.reg x))) := rfl

theorem exec_ldFX (x : Reg) : exec (.ldFX x) s = .next (s.advance.setI (glyphAddr (s.reg x))) := rfl

theorem exec_skp (x : Reg) :
    exec (.skp x) s = .next (s.setPc (if keyLevel s (s.reg x) then s.pc + 4 else s.pc + 2)) := by
  rw [exec, execSkp, State.advance_skipIf]

theorem exec_sknp (x : Reg) :
    exec (.sknp x) s = .next (s.setPc (if keyLevel s (s.reg x) then s.pc + 2 else s.pc + 4)) := by
  rw [exec, execSknp, State.advance_skipIf]
  cases keyLevel s (s.reg x) <;> rfl

theorem exec_ldXK_of_some (x : Reg) {k : Byte} (h : lowestKey s = some k) :
    exec (.ldXK x) s = .next (s.advance.setReg x k) := by
  simp only [exec, execLdXK, h]

/-- Parked, the instruction takes its own advance back (R236). -/
theorem exec_ldXK_of_none (x : Reg) (h : lowestKey s = none) : exec (.ldXK x) s = .next s := by
  have hpc : s.advance.pc - 2 = s.pc := BitVec.add_sub_cancel s.pc 2
  simp only [exec, execLdXK, h, hpc]
  rfl

theorem exec_unimpl (w : Word) : exec (.unimpl w) s = .next (s.advance.report s.pc w) := rfl

theorem exec_ldBX_of_valid {x : Reg} (h : ¬touchesInvalid (.ldBX x) s) : exec (.ldBX x) s =
    .next (s.advance.setMem (memSetMany s.mem s.i.toNat (decimalDigits (s.reg x)))) := by
  simp only [touchesInvalid] at h
  exact storeAtI_ok (by rw [decimalDigits_length]; omega)

theorem exec_stRegs_of_valid {x : Reg} (h : ¬touchesInvalid (.stRegs x) s) : exec (.stRegs x) s =
    .next (s.advance.setMem (memSetMany s.mem s.i.toNat (regsUpTo s x))) := by
  simp only [touchesInvalid] at h
  exact storeAtI_ok (by rw [regsUpTo_length]; omega)

theorem exec_ldRegs_of_valid {x : Reg} (h : ¬touchesInvalid (.ldRegs x) s) : exec (.ldRegs x) s =
    .next (s.advance.loadRegs (memBytes s.mem s.i.toNat (x.val + 1))) := by
  simp only [touchesInvalid] at h
  rw [exec, execLdRegs, effAddr_zero, readBytes_ok _ _ _ (.inr (by omega))]
  rfl

/-- What a draw leaves: the advance, the grid with the sprite in it, and the collision in `VF` (R213). -/
def State.drawSprite (x y : Reg) (rows : List Byte) : State :=
  let drawn := drawRows ((s.reg x).toNat % 64) ((s.reg y).toNat % 32) 0 rows (s.fb, false)
  (s.advance.setFb drawn.1).setReg regF (flagByte drawn.2)

theorem exec_drw_of_valid {x y : Reg} {n : Nibble} (h : ¬touchesInvalid (.drw x y n) s) : exec (.drw x y n) s =
    .next (s.drawSprite x y (memBytes s.mem s.i.toNat n.toNat)) := by
  simp only [touchesInvalid] at h
  rw [exec, execDrw, effAddr_zero, readBytes_ok _ _ _ (by omega)]
  rfl

/-- The fault of the memory instructions, with its address as a number (R252). -/
theorem exec_of_touchesInvalid {i : Instr} {s : State} (h : touchesInvalid i s) :
    ∃ a : Addr, a.toNat = max s.i.toNat 0x1000 ∧
      exec i s = .next { s with fault := some (.memoryAddressFault a) } := by
  obtain ⟨hi, he⟩ := exec_address_fault i s h
  exact ⟨_, firstInvalid_toNat hi, he⟩

end Sys2Proof.Machine
end

section
/-! SUPPORT. What each instruction may write (spec/40_step_cycle.md R130), and that it writes nothing else. -/

namespace Sys2Proof.Machine

/-- The components besides `PC` and the registers that an instruction may write. -/
def otherWrites : Instr → List Component
  | .cls | .drw _ _ _ => [.fb]
  | .ret | .call _ => [.stack]
  | .ldI _ | .addIX _ | .ldFX _ => [.i]
  | .rnd _ _ => [.rndCount]
  | .ldDtX _ => [.dt]
  | .ldStX _ => [.st]
  | .ldBX _ | .stRegs _ => [.mem]
  | .unimpl _ => [.reports]
  | .jp _ | .jpV0 _ | .seXNN _ _ | .sneXNN _ _ | .seXY _ _ | .sneXY _ _ | .ldXNN _ _ | .addXNN _ _ | .ldXY _ _
  | .orXY _ _ | .andXY _ _ | .xorXY _ _ | .addXY _ _ | .sub _ _ | .shr _ _ | .subn _ _ | .shl _ _ | .skp _ | .sknp _
  | .ldXDt _ | .ldXK _ | .ldRegs _ => []

/-- All the components an instruction may write. -/
def writes (i : Instr) : List Component := .pc :: (otherWrites i ++ (writtenRegs i).map .reg)

theorem pc_mem_writes (i : Instr) : .pc ∈ writes i := List.mem_cons_self

theorem mem_writes_of_other {i : Instr} {c : Component} (h : c ∈ otherWrites i) : c ∈ writes i :=
  List.mem_cons_of_mem _ (List.mem_append_left _ h)

theorem reg_mem_writes {i : Instr} {r : Reg} : .reg r ∈ writes i ↔ r ∈ writtenRegs i := by
  have hother : .reg r ∉ otherWrites i := by cases i <;> simp [otherWrites]
  simp [writes, hother]

/-- The frame of an instruction: it takes a fault, which writes the latch alone, or writes nothing but its list. -/
theorem exec_frame (i : Instr) (s : State) :
    ∃ t, exec i s = .next t ∧ ((∃ f, t = s.setFault (some f)) ∨ SameBut (writes i) s t) := by
  have adv {i : Instr} : SameBut (writes i) s s.advance := sameBut_advance s (pc_mem_writes i)
  have jump {i : Instr} (a : Addr) : SameBut (writes i) s (s.setPc a) := (SameBut.refl _ s).setPc (pc_mem_writes i) a
  have faults {i : Instr} (h : touchesInvalid i s) :
      ∃ t, exec i s = .next t ∧ ((∃ f, t = s.setFault (some f)) ∨ SameBut (writes i) s t) :=
    ⟨_, (exec_address_fault i s h).2, .inl ⟨_, rfl⟩⟩
  have other {i : Instr} {c : Component} (h : c ∈ otherWrites i) : c ∈ writes i := mem_writes_of_other h
  have reg {i : Instr} {r : Reg} (h : r ∈ writtenRegs i) : .reg r ∈ writes i := reg_mem_writes.2 h
  cases i with
  | cls => exact ⟨_, exec_cls s, .inr (adv.setFb (other (by simp [otherWrites])) _)⟩
  | ret =>
    rcases List.eq_nil_or_concat s.stack with h | ⟨rest, a, h⟩
    · exact ⟨_, exec_ret_of_empty s h, .inl ⟨_, rfl⟩⟩
    · rw [List.concat_eq_append] at h
      exact ⟨_, exec_ret_of_stack s h,
        .inr (((SameBut.refl _ s).setStack (other (by simp [otherWrites])) _).setPc (pc_mem_writes _) _)⟩
  | jp nnn => exact ⟨_, exec_jp nnn s, .inr (jump _)⟩
  | call nnn =>
    exact ⟨_, exec_call s nnn,
      .inr (((SameBut.refl _ s).setStack (other (by simp [otherWrites])) _).setPc (pc_mem_writes _) _)⟩
  | seXNN x nn => exact ⟨_, exec_seXNN x nn s, .inr (jump _)⟩
  | sneXNN x nn => exact ⟨_, exec_sneXNN x nn s, .inr (jump _)⟩
  | seXY x y => exact ⟨_, exec_seXY x y s, .inr (jump _)⟩
  | ldXNN x nn => exact ⟨_, exec_ldXNN s x nn, .inr (adv.setReg (reg (by simp [writtenRegs])) _)⟩
  | addXNN x nn => exact ⟨_, exec_addXNN x nn s, .inr (adv.setReg (reg (by simp [writtenRegs])) _)⟩
  | ldXY x y => exact ⟨_, exec_ldXY s x y, .inr (adv.setReg (reg (by simp [writtenRegs])) _)⟩
  | orXY x y => exact ⟨_, exec_orXY s x y, .inr (adv.setReg (reg (by simp [writtenRegs])) _)⟩
  | andXY x y => exact ⟨_, exec_andXY s x y, .inr (adv.setReg (reg (by simp [writtenRegs])) _)⟩
  | xorXY x y => exact ⟨_, exec_xorXY s x y, .inr (adv.setReg (reg (by simp [writtenRegs])) _)⟩
  | addXY x y =>
    exact ⟨_, exec_addXY x y s,
      .inr ((adv.setReg (reg (by simp [writtenRegs])) _).setReg (reg (by simp [writtenRegs])) _)⟩
  | sub x y =>
    exact ⟨_, exec_sub s x y,
      .inr ((adv.setReg (reg (by simp [writtenRegs])) _).setReg (reg (by simp [writtenRegs])) _)⟩
  | shr x y =>
    exact ⟨_, exec_shr s x y,
      .inr ((adv.setReg (reg (by simp [writtenRegs])) _).setReg (reg (by simp [writtenRegs])) _)⟩
  | subn x y =>
    exact ⟨_, exec_subn s x y,
      .inr ((adv.setReg (reg (by simp [writtenRegs])) _).setReg (reg (by simp [writtenRegs])) _)⟩
  | shl x y =>
    exact ⟨_, exec_shl s x y,
      .inr ((adv.setReg (reg (by simp [writtenRegs])) _).setReg (reg (by simp [writtenRegs])) _)⟩
  | sneXY x y => exact ⟨_, exec_sneXY x y s, .inr (jump _)⟩
  | ldI nnn => exact ⟨_, exec_ldI s nnn, .inr (adv.setI (other (by simp [otherWrites])) _)⟩
  | jpV0 nnn => exact ⟨_, exec_jpV0 nnn s, .inr (jump _)⟩
  | rnd x nn =>
    exact ⟨_, exec_rnd s x nn,
      .inr ((adv.drawn (other (by simp [otherWrites]))).setReg (reg (by simp [writtenRegs])) _)⟩
  | drw x y n =>
    by_cases h : touchesInvalid (.drw x y n) s
    · exact faults h
    · exact ⟨_, exec_drw_of_valid s h,
        .inr ((adv.setFb (other (by simp [otherWrites])) _).setReg (reg (by simp [writtenRegs])) _)⟩
  | skp x => exact ⟨_, exec_skp s x, .inr (jump _)⟩
  | sknp x => exact ⟨_, exec_sknp s x, .inr (jump _)⟩
  | ldXDt x => exact ⟨_, exec_ldXDt x s, .inr (adv.setReg (reg (by simp [writtenRegs])) _)⟩
  | ldXK x =>
    cases h : lowestKey s with
    | none => exact ⟨_, exec_ldXK_of_none s x h, .inr (SameBut.refl _ s)⟩
    | some k => exact ⟨_, exec_ldXK_of_some s x h, .inr (adv.setReg (reg (by simp [writtenRegs])) _)⟩
  | ldDtX x => exact ⟨_, exec_ldDtX x s, .inr (adv.setDt (other (by simp [otherWrites])) _)⟩
  | ldStX x => exact ⟨_, exec_ldStX x s, .inr (adv.setSt (other (by simp [otherWrites])) _)⟩
  | addIX x => exact ⟨_, exec_addIX s x, .inr (adv.setI (other (by simp [otherWrites])) _)⟩
  | ldFX x => exact ⟨_, exec_ldFX s x, .inr (adv.setI (other (by simp [otherWrites])) _)⟩
  | ldBX x =>
    by_cases h : touchesInvalid (.ldBX x) s
    · exact faults h
    · exact ⟨_, exec_ldBX_of_valid s h, .inr (adv.setMem (other (by simp [otherWrites])) _)⟩
  | stRegs x =>
    by_cases h : touchesInvalid (.stRegs x) s
    · exact faults h
    · exact ⟨_, exec_stRegs_of_valid s h, .inr (adv.setMem (other (by simp [otherWrites])) _)⟩
  | ldRegs x =>
    by_cases h : touchesInvalid (.ldRegs x) s
    · exact faults h
    · refine ⟨_, exec_ldRegs_of_valid s h, .inr (adv.loadRegs fun r hr => reg ?_)⟩
      rw [memBytes_length] at hr
      exact List.mem_filter.2 ⟨List.mem_finRange r, decide_eq_true (Fin.le_def.2 (by omega))⟩
  | unimpl w => exact ⟨_, exec_unimpl s w, .inr (adv.report (other (by simp [otherWrites])) _ _)⟩

/-- The frame, for an instruction that is known to have gone on. -/
theorem sameBut_writes_of_exec {i : Instr} {s t : State} (he : exec i s = .next t) (hf : t.fault = none) :
    SameBut (writes i) s t := by
  obtain ⟨u, hu, ⟨f, rfl⟩ | hframe⟩ := exec_frame i s
  · rw [← Host.Outcome.next.inj (hu.symm.trans he)] at hf
    cases hf
  · exact Host.Outcome.next.inj (hu.symm.trans he) ▸ hframe

end Sys2Proof.Machine
end

section
/-! SUPPORT. A step by its cases (spec/40_step_cycle.md R120 to R126, spec/60_exceptions.md R250 to R254). -/

namespace Sys2Proof.Machine

theorem step_of_fault {s : State} (h : s.fault ≠ none) : step s = .next s := by
  have hh : s.halted = true := Option.isSome_iff_ne_none.2 h
  simp [step, stepCycle, hh]

/-- A running step that fetched a word is its instruction and then the end of the step (R126). -/
theorem step_of_fetch {s : State} {w : Word} (hs : s.fault = none) (hf : fetch s = .ok w) :
    step s = endStep (exec (decodeWord w) s) := by
  have hrun : s.halted = false := State.halted_eq_false.2 hs
  simp [step, stepCycle, hrun, hf]

/-- A running step that fetched a word and answered `t`: its instruction took a fault, or went on and the timers
ticked. -/
theorem step_fetched_cases {s t : State} {w : Word} (hs : s.fault = none) (hf : fetch s = .ok w)
    (h : step s = .next t) :
    (∃ f, exec (decodeWord w) s = .next (s.setFault (some f)) ∧ t = s.setFault (some f)) ∨
    (∃ u, exec (decodeWord w) s = .next u ∧ u.fault = none ∧ t = u.tickTimers) := by
  rw [step_of_fetch hs hf] at h
  rcases exec_cases (decodeWord w) s with ⟨f, he⟩ | ⟨u, he, hu⟩
  · rw [he] at h
    exact .inl ⟨f, he, (Host.Outcome.next.inj h).symm⟩
  · have hun : u.fault = none := hu.trans hs
    have hgoesOn : u.halted = false := State.halted_eq_false.2 hun
    rw [he, endStep_next, hgoesOn] at h
    exact .inr ⟨u, he, hun, (Host.Outcome.next.inj h).symm⟩

/-- A running step that answered `t`: it took a fault in the state it was given, or it ran a whole instruction and the
timers ticked. -/
theorem step_running_cases {s t : State} (hs : s.fault = none) (h : step s = .next t) :
    (∃ f, t = s.setFault (some f)) ∨
    (∃ w u, fetch s = .ok w ∧ exec (decodeWord w) s = .next u ∧ u.fault = none ∧ t = u.tickTimers) := by
  obtain ⟨hh, -⟩ | ⟨-, f, -, h'⟩ | ⟨-, _, f, -, -, h'⟩ | ⟨-, w, u, hf, he, hu, h'⟩ := step_cases s
  · rw [State.halted_eq_false.2 hs] at hh
    cases hh
  · exact .inl ⟨f, Host.Outcome.next.inj (h.symm.trans h')⟩
  · exact .inl ⟨f, Host.Outcome.next.inj (h.symm.trans h')⟩
  · exact .inr ⟨w, u, hf, he, hu, Host.Outcome.next.inj (h.symm.trans h')⟩

/-- The frame of a running step that leaves no fault: the list of its instruction and the two timers. -/
theorem sameBut_writes_of_step {s t : State} {w : Word} (hs : s.fault = none) (hf : fetch s = .ok w)
    (h : step s = .next t) (ht : t.fault = none) : SameBut (.dt :: .st :: writes (decodeWord w)) s t := by
  obtain ⟨f, -, rfl⟩ | ⟨u, he, hu, rfl⟩ := step_fetched_cases hs hf h
  · cases ht
  · have hframe := (sameBut_writes_of_exec he hu).mono (ds := .dt :: .st :: writes (decodeWord w)) (by simp)
    exact hframe.tickTimers (by simp) (by simp)

/-- Settles O9: the halt check comes before the fetch. -/
theorem haltedStepChangesNothing : Obligations.HaltedStepChangesNothing := fun _ => step_of_fault

/-- Settles O12: each case of a step answers a state. -/
theorem everyStepAnswersANextState : Obligations.EveryStepAnswersANextState := by
  intro s
  obtain ⟨-, h⟩ | ⟨-, _, -, h⟩ | ⟨-, _, _, -, -, h⟩ | ⟨-, _, _, -, -, -, h⟩ := step_cases s
  all_goals exact ⟨_, h⟩

/-- Settles O7: two valid bytes are the fetched word, and the step ends by the latch. -/
theorem stepRunsTheDecodedInstruction : Obligations.StepRunsTheDecodedInstruction := by
  intro s hi lo i hs hhi hlo hdec _
  have hfetch : fetch s = .ok (wordOfBytes hi lo) := by simp only [fetch, readWord, hhi, hlo]
  have hi : decodeWord (wordOfBytes hi lo) = i := by simpa [decodeBytes] using hdec
  obtain ⟨t, he⟩ : ∃ t, exec i s = .next t := (exec_frame i s).imp fun _ h => h.1
  rw [step_of_fetch hs hfetch, hi, he, endStep_next]
  cases ht : t.fault <;> simp [State.halted, ht]

/-- Settles O10: the step that latches a fault takes it in the state it was given. -/
theorem faultingStepChangesOnlyTheLatch : Obligations.FaultingStepChangesOnlyTheLatch := by
  intro s t hs h ht
  obtain ⟨f, rfl⟩ | ⟨_, u, -, -, hu, rfl⟩ := step_running_cases hs h
  · exact ⟨f, rfl⟩
  · exact absurd hu ht

/-! ### which step raises which fault -/

theorem eq_firstInvalid_iff {a b : Addr} (h : 0xFF1 ≤ b.toNat) : a = firstInvalid b ↔ a.toNat = max b.toNat 0x1000 := by
  rw [← firstInvalid_toNat h, BitVec.toNat_inj]

/-- Only the word 00EE is the return (R143). -/
theorem decodeWord_eq_ret_iff (w : Word) : decodeWord w = .ret ↔ w = 0x00EE#16 :=
  ⟨eq_encode_of_decodeWord, fun h => h ▸ decodeWord_encode (i := .ret) fun _ => nofun⟩

theorem not_touchesInvalid_ret (s : State) : ¬touchesInvalid .ret s := id

/-- A running step raises the fault of its fetch, of its instruction's accesses or of a return on an empty stack, or
none; each with the condition that excludes the others. -/
theorem step_fault_cases {s : State} (hs : s.fault = none) :
    (0xFFE < s.pc.toNat ∧ fetch s = .error (.memoryAddressFault (firstInvalid s.pc)) ∧
      step s = .next (s.setFault (some (.memoryAddressFault (firstInvalid s.pc))))) ∨
    (s.pc.toNat ≤ 0xFFE ∧ ∃ w, fetch s = .ok w ∧
      ((touchesInvalid (decodeWord w) s ∧ 0xFF1 ≤ s.i.toNat ∧
          step s = .next (s.setFault (some (.memoryAddressFault (firstInvalid s.i))))) ∨
        (w = 0x00EE#16 ∧ s.stack = [] ∧ step s = .next (s.setFault (some .stackUnderflow))) ∨
        (¬touchesInvalid (decodeWord w) s ∧ ¬(w = 0x00EE#16 ∧ s.stack = []) ∧
          ∃ t, step s = .next t ∧ t.fault = none))) := by
  have hrun : s.halted = false := State.halted_eq_false.2 hs
  by_cases hpc : 0xFFE < s.pc.toNat
  · have hf := fetch_fault hpc
    exact .inl ⟨hpc, hf, by simp [step, stepCycle, hrun, hf]⟩
  obtain ⟨w, hw⟩ := (fetch_ok_iff s).2 (by omega)
  refine .inr ⟨by omega, w, hw, ?_⟩
  rw [step_of_fetch hs hw]
  by_cases htouch : touchesInvalid (decodeWord w) s
  · obtain ⟨hi, he⟩ := exec_address_fault _ s htouch
    exact .inl ⟨htouch, hi, by rw [he]; rfl⟩
  by_cases hret : w = 0x00EE#16 ∧ s.stack = []
  · obtain ⟨hw', hstack⟩ := hret
    rw [(decodeWord_eq_ret_iff w).2 hw', exec_ret_of_empty s hstack]
    exact .inr (.inl ⟨hw', hstack, rfl⟩)
  · obtain ⟨t, he, ht⟩ := exec_goes_on _ s htouch
      fun h hstack => hret ⟨(decodeWord_eq_ret_iff w).1 h, hstack⟩
    have htn : t.fault = none := ht.trans hs
    refine .inr (.inr ⟨htouch, hret, t.tickTimers, ?_, htn⟩)
    rw [he, endStep_next, State.halted_eq_false.2 htn]
    rfl

/-- Settles O11: the cases of a running step exclude each other, so each fault has exactly its own. -/
theorem faultsAriseExactlyAsListed : Obligations.FaultsAriseExactlyAsListed := by
  intro s hs
  obtain ⟨hpc, hf, h⟩ | ⟨hpc, w, hf, ⟨htouch, hi, h⟩ | ⟨rfl, hstack, h⟩ | ⟨htouch, hret, t, h, ht⟩⟩ :=
    step_fault_cases hs
  · have hpc' : 0xFF1 ≤ s.pc.toNat := by omega
    simp [h, hf, hpc, ← eq_firstInvalid_iff hpc', eq_comm]
  · have hret : w ≠ 0x00EE#16 := by
      rintro rfl
      exact htouch
    simp [h, hf, Nat.not_lt.2 hpc, htouch, hret, ← eq_firstInvalid_iff hi, eq_comm]
  · have htouch : ¬touchesInvalid (decodeWord 0x00EE#16) s := not_touchesInvalid_ret s
    simp [h, hf, Nat.not_lt.2 hpc, htouch, hstack]
  · simpa [h, hf, Nat.not_lt.2 hpc, htouch, ht] using hret

end Sys2Proof.Machine
end

section
/-! SUPPORT. What a whole step writes (spec/40_step_cycle.md R125, R130; spec/10_state.md R21, R22): read off the frame
of its instruction. -/

namespace Sys2Proof.Machine

/-! ### which instructions list a component -/

theorem eq_of_mem_writes_mem {i : Instr} (h : .mem ∈ writes i) : ∃ x, i = .ldBX x ∨ i = .stRegs x := by
  cases i <;> simp [writes, otherWrites] at h ⊢

theorem eq_of_mem_writes_fb {i : Instr} (h : .fb ∈ writes i) : i = .cls ∨ ∃ x y n, i = .drw x y n := by
  cases i <;> simp [writes, otherWrites] at h ⊢

theorem eq_of_mem_writes_stack {i : Instr} (h : .stack ∈ writes i) : i = .ret ∨ ∃ nnn, i = .call nnn := by
  cases i <;> simp [writes, otherWrites] at h ⊢

theorem eq_of_mem_writes_i {i : Instr} (h : .i ∈ writes i) :
    (∃ nnn, i = .ldI nnn) ∨ ∃ x, i = .addIX x ∨ i = .ldFX x := by
  cases i <;> simp [writes, otherWrites] at h ⊢

theorem eq_of_mem_writes_rndCount {i : Instr} (h : .rndCount ∈ writes i) : ∃ x nn, i = .rnd x nn := by
  cases i <;> simp [writes, otherWrites] at h ⊢

theorem eq_of_mem_writes_reports {i : Instr} (h : .reports ∈ writes i) : ∃ w, i = .unimpl w := by
  cases i <;> simp [writes, otherWrites] at h ⊢

theorem eq_of_mem_writes_dt {i : Instr} (h : .dt ∈ writes i) : ∃ x, i = .ldDtX x := by
  cases i <;> simp [writes, otherWrites] at h ⊢

theorem eq_of_mem_writes_st {i : Instr} (h : .st ∈ writes i) : ∃ x, i = .ldStX x := by
  cases i <;> simp [writes, otherWrites] at h ⊢

theorem keys_font_not_mem_writes (i : Instr) : .keys ∉ writes i ∧ .font ∉ writes i := by
  cases i <;> simp [writes, otherWrites]

/-- A word that decodes to `UNIMPL` is the word it carries. -/
theorem decodeWord_eq_unimpl_self {w v : Word} (h : decodeWord w = .unimpl v) : decodeWord w = .unimpl w := by
  have hwv : w = v := eq_encode_of_decodeWord h
  rw [h, hwv]

/-- Settles O14: what changes is in the list of the instruction, and the list names the instruction. -/
theorem stepWritesOnlyTheStateNamed : Obligations.StepWritesOnlyTheStateNamed := by
  intro s t w hs hf h
  by_cases ht : t.fault = none
  · have hframe := sameBut_writes_of_step hs hf h ht
    have changed {c : Component} (hdt : c ≠ .dt) (hst : c ≠ .st) (hc : ¬Same c s t) : c ∈ writes (decodeWord w) := by
      by_contra hm
      exact hc (hframe c (by simp [hdt, hst, hm]))
    obtain ⟨hkeys, hfont⟩ := keys_font_not_mem_writes (decodeWord w)
    refine ⟨hframe .keys (by simp [hkeys]), hframe .font (by simp [hfont]), fun hne => absurd (ht.trans hs.symm) hne,
      fun ⟨a, ha⟩ => eq_of_mem_writes_mem (changed nofun nofun fun hsame => ha (hsame a)),
      fun hne => eq_of_mem_writes_fb (changed nofun nofun hne),
      fun hne => eq_of_mem_writes_stack (changed nofun nofun hne),
      fun hne => eq_of_mem_writes_i (changed nofun nofun hne),
      fun hne => eq_of_mem_writes_rndCount (changed nofun nofun hne), fun hne => ?_⟩
    obtain ⟨v, hv⟩ := eq_of_mem_writes_reports (changed nofun nofun hne)
    exact decodeWord_eq_unimpl_self hv
  · obtain ⟨f, rfl⟩ := faultingStepChangesOnlyTheLatch s t hs h ht
    simp

/-- Settles O15: a register that changes is in the list of the instruction. -/
theorem stepWritesOnlyTheRegistersListed : Obligations.StepWritesOnlyTheRegistersListed := by
  intro s t w r hf h hr
  by_cases hs : s.fault = none
  · by_cases ht : t.fault = none
    · exact sameBut_writes_of_step hs hf h ht (.reg r) (by simp [reg_mem_writes, hr])
    · obtain ⟨f, rfl⟩ := faultingStepChangesOnlyTheLatch s t hs h ht
      rfl
  · rw [← Host.Outcome.next.inj ((step_of_fault hs).symm.trans h)]

/-! ### the timers -/

/-- `DT` before the tick: what `FX15` wrote, or for any other instruction what it was. -/
theorem dt_of_exec {i : Instr} {s t : State} (he : exec i s = .next t) (hf : t.fault = none) :
    (∀ x, i = .ldDtX x → t.dt = s.reg x) ∧ ((∀ x, i ≠ .ldDtX x) → t.dt = s.dt) := by
  constructor
  · rintro x rfl
    rw [← Host.Outcome.next.inj ((exec_ldDtX x s).symm.trans he)]
    rfl
  · intro hi
    exact sameBut_writes_of_exec he hf .dt fun hm => (eq_of_mem_writes_dt hm).elim hi

/-- `ST` before the tick: what `FX18` wrote, or for any other instruction what it was. -/
theorem st_of_exec {i : Instr} {s t : State} (he : exec i s = .next t) (hf : t.fault = none) :
    (∀ x, i = .ldStX x → t.st = s.reg x) ∧ ((∀ x, i ≠ .ldStX x) → t.st = s.st) := by
  constructor
  · rintro x rfl
    rw [← Host.Outcome.next.inj ((exec_ldStX x s).symm.trans he)]
    rfl
  · intro hi
    exact sameBut_writes_of_exec he hf .st fun hm => (eq_of_mem_writes_st hm).elim hi

/-- Settles O13: the tick takes one off what the instruction left; a fault and a halted step leave the timers alone. -/
theorem timersTickOncePerCompletedStep : Obligations.TimersTickOncePerCompletedStep := by
  intro s t h
  by_cases hs : s.fault = none
  · refine ⟨fun ht => ?_, fun ht => ?_⟩
    · obtain ⟨f, rfl⟩ | ⟨w, u, hf, he, hu, rfl⟩ := step_running_cases hs h
      · cases ht
      · obtain ⟨hdt, hdt'⟩ := dt_of_exec he hu
        obtain ⟨hst, hst'⟩ := st_of_exec he hu
        simp only [State.tickTimers_dt, State.tickTimers_st, tick_toNat]
        exact ⟨w, hf, fun x hx => by rw [hdt x hx], fun hx => by rw [hdt' hx], fun x hx => by rw [hst x hx],
          fun hx => by rw [hst' hx]⟩
    · obtain ⟨f, rfl⟩ := faultingStepChangesOnlyTheLatch s t hs h ht
      exact ⟨rfl, rfl⟩
  · obtain rfl := Host.Outcome.next.inj ((step_of_fault hs).symm.trans h)
    exact ⟨fun ht => absurd ht hs, fun _ => ⟨rfl, rfl⟩⟩

/-- Settles O23: by induction on the steps after `FX15`, each of which takes one off `DT`. -/
theorem delayTimerDecays : Obligations.DelayTimerDecays := by
  intro s w x run m hs hf hd h0 hrun
  induction m with
  | zero =>
    have hstep := step_eq_tickTimers hs hf hd (exec_ldDtX x s) rfl
    rw [Host.Outcome.next.inj (h0.symm.trans hstep)]
    exact tick_toNat (s.reg x)
  | succ m ih =>
    obtain ⟨hstep, hnone, hother⟩ := hrun m (Nat.lt_succ_self m)
    obtain ⟨v, hv, -, hdt, -⟩ := (timersTickOncePerCompletedStep _ _ hstep).1 hnone
    rw [hdt fun y => hother v y hv, ih fun k hk => hrun k (Nat.lt_succ_of_lt hk)]
    omega

end Sys2Proof.Machine
end

section
/-! SUPPORT. The outputs of the machine, `ST` and the reports: no meaning reads them (spec/10_state.md R39,
spec/60_exceptions.md R258). -/

namespace Sys2Proof.Machine

/-- The state with another sound timer and another trace of reports. -/
def State.withOutputs (s : State) (b : Byte) (l : List Report) : State := { s with st := b, reports := l }

/-- `r` and `r'` answer the same next state but for an output that differed before, `ST` or the reports. -/
def AgreeButOutputs (s : State) (b : Byte) (l : List Report) (r r' : Result) : Prop :=
  ∃ t b' l', r = .next t ∧ r' = .next (t.withOutputs b' l') ∧ (b = s.st → b' = t.st) ∧ (l = s.reports → l' = t.reports)

section
variable {s : State} {b : Byte} {l : List Report} {r r' : Result}

/-- The usual case: an instruction that writes neither output. -/
theorem AgreeButOutputs.of_kept {t : State} (hr : r = .next t) (hr' : r' = .next (t.withOutputs b l))
    (hst : t.st = s.st) (hrep : t.reports = s.reports) : AgreeButOutputs s b l r r' :=
  ⟨t, b, l, hr, hr', fun h => h.trans hst.symm, fun h => h.trans hrep.symm⟩

theorem AgreeButOutputs.orFault {α : Type} (a : Except Fault α) {k k' : α → State}
    (hk : ∀ x, k' x = (k x).withOutputs b l) (hst : ∀ x, (k x).st = s.st) (hrep : ∀ x, (k x).reports = s.reports) :
    AgreeButOutputs s b l (orFault a s k) (orFault a (s.withOutputs b l) k') := by
  cases a with
  | error f => exact .of_kept rfl rfl rfl rfl
  | ok x => exact .of_kept rfl (congrArg Host.Outcome.next (hk x)) (hst x) (hrep x)

theorem AgreeButOutputs.endStep (h : AgreeButOutputs s b l r r') :
    AgreeButOutputs s b l (endStep r) (endStep r') := by
  obtain ⟨t, b', l', rfl, rfl, hst, hrep⟩ := h
  have hhalted : (t.withOutputs b' l').halted = t.halted := rfl
  rw [endStep_next, endStep_next, hhalted]
  cases t.halted with
  | true => exact ⟨t, b', l', rfl, rfl, hst, hrep⟩
  | false => exact ⟨t.tickTimers, tick b', l', rfl, rfl, fun h => congrArg tick (hst h), hrep⟩

end

theorem exec_agreeButOutputs (i : Instr) (s : State) (b : Byte) (l : List Report) :
    AgreeButOutputs s b l (exec i s) (exec i (s.withOutputs b l)) := by
  cases i with
  | ret =>
    rcases List.eq_nil_or_concat s.stack with h | ⟨rest, a, h⟩
    · exact .of_kept (exec_ret_of_empty s h) (exec_ret_of_empty (s.withOutputs b l) h) rfl rfl
    · rw [List.concat_eq_append] at h
      exact .of_kept (exec_ret_of_stack s h) (exec_ret_of_stack (s.withOutputs b l) h) rfl rfl
  | seXNN x nn => exact .of_kept (exec_seXNN x nn s) (exec_seXNN x nn _) rfl rfl
  | sneXNN x nn => exact .of_kept (exec_sneXNN x nn s) (exec_sneXNN x nn _) rfl rfl
  | seXY x y => exact .of_kept (exec_seXY x y s) (exec_seXY x y _) rfl rfl
  | sneXY x y => exact .of_kept (exec_sneXY x y s) (exec_sneXY x y _) rfl rfl
  | skp x => exact .of_kept (exec_skp s x) (exec_skp _ x) rfl rfl
  | sknp x => exact .of_kept (exec_sknp s x) (exec_sknp _ x) rfl rfl
  | ldXK x =>
    cases h : lowestKey s with
    | none => exact .of_kept (exec_ldXK_of_none s x h) (exec_ldXK_of_none (s.withOutputs b l) x h) rfl rfl
    | some k => exact .of_kept (exec_ldXK_of_some s x h) (exec_ldXK_of_some (s.withOutputs b l) x h) rfl rfl
  | drw x y n => exact .orFault _ (fun _ => rfl) (fun _ => rfl) fun _ => rfl
  | ldBX x => exact .orFault _ (fun _ => rfl) (fun _ => rfl) fun _ => rfl
  | stRegs x => exact .orFault _ (fun _ => rfl) (fun _ => rfl) fun _ => rfl
  | ldRegs x => exact .orFault _ (fun _ => rfl) (fun _ => rfl) fun _ => rfl
  | ldStX x => exact ⟨_, s.reg x, l, exec_ldStX x s, rfl, fun _ => rfl, id⟩
  | unimpl w => exact ⟨_, b, l ++ [⟨s.pc, w⟩], exec_unimpl s w, rfl, id, fun h => congrArg (· ++ _) h⟩
  | _ => exact .of_kept rfl rfl rfl rfl

/-- A step from two states that differ in the outputs alone. -/
theorem step_agreeButOutputs (s : State) (b : Byte) (l : List Report) :
    AgreeButOutputs s b l (step s) (step (s.withOutputs b l)) := by
  by_cases hs : s.fault = none
  · have hfetch : fetch (s.withOutputs b l) = fetch s := rfl
    cases hf : fetch s with
    | error f =>
      have hrun : s.halted = false := State.halted_eq_false.2 hs
      have hrun' : (s.withOutputs b l).halted = false := hrun
      exact .of_kept (t := s.setFault (some f)) (by simp [step, stepCycle, hrun, hf])
        (by simp [step, stepCycle, hrun', hfetch, hf]; rfl) rfl rfl
    | ok w =>
      rw [step_of_fetch hs hf, step_of_fetch (s := s.withOutputs b l) hs (hfetch.trans hf)]
      exact (exec_agreeButOutputs (decodeWord w) s b l).endStep
  · exact .of_kept (step_of_fault hs) (step_of_fault (s := s.withOutputs b l) hs) rfl rfl

/-- Settles O21: the two next states agree but for the outputs, and the reports did not differ before. -/
theorem soundTimerIsReadByNoInstruction : Obligations.SoundTimerIsReadByNoInstruction := by
  intro s b
  obtain ⟨t, b', l', ht, hu, -, hrep⟩ := step_agreeButOutputs s b s.reports
  refine ⟨t, _, ht, hu, ?_⟩
  rw [hrep rfl]
  rfl

/-- Settles O22: the two next states agree but for the outputs, and `ST` did not differ before. -/
theorem noStepDependsOnTheReports : Obligations.NoStepDependsOnTheReports := by
  intro s l
  obtain ⟨t, b', l', ht, hu, hst, -⟩ := step_agreeButOutputs s s.st l
  refine ⟨t, _, ht, hu, ?_⟩
  rw [hst rfl]
  rfl

end Sys2Proof.Machine
end

section
/-! SUPPORT. The invariant (spec/10_state.md section 5, spec/41_control_flow.md R142, spec/60_exceptions.md R252): what
keeps it, and that every instruction, step and move does. -/

namespace Sys2Proof.Machine

section
variable {s : State}

theorem State.faultFits_of_none (h : s.fault = none) : s.FaultFits := by rw [State.FaultFits, h]; trivial

/-- A write that keeps memory, the stack and the latch keeps the invariant when the new `PC` is within its bound. -/
theorem State.Inv.of_pc (h : s.Inv) (hs : s.fault = none) {t : State} (hpc : t.pc.toNat ≤ 0x10FE)
    (hmem : t.mem = s.mem) (hstack : t.stack = s.stack) (hfault : t.fault = s.fault) : t.Inv where
  memory := hmem ▸ h.memory
  pcBound := hpc
  returnAddresses := hstack ▸ h.returnAddresses
  faultFits := State.faultFits_of_none (hfault.trans hs)

/-- A memory in canonical form may replace the old one, whatever is latched. -/
theorem State.Inv.setMem (h : s.Inv) {m : Memory} (hm : Memory.wf m) : (s.setMem m).Inv where
  memory := hm
  pcBound := h.pcBound
  returnAddresses := h.returnAddresses
  faultFits := h.faultFits

theorem State.Inv.setKeys (h : s.Inv) (k : Vector Bool 16) : (s.setKeys k).Inv where
  memory := h.memory
  pcBound := h.pcBound
  returnAddresses := h.returnAddresses
  faultFits := h.faultFits

theorem State.Inv.tickTimers (h : s.Inv) : s.tickTimers.Inv where
  memory := h.memory
  pcBound := h.pcBound
  returnAddresses := h.returnAddresses
  faultFits := h.faultFits

theorem State.Inv.setFault (h : s.Inv) {f : Option Fault} (hf : (s.setFault f).FaultFits) : (s.setFault f).Inv where
  memory := h.memory
  pcBound := h.pcBound
  returnAddresses := h.returnAddresses
  faultFits := hf

theorem firstInvalid_eq_or (a : Addr) : firstInvalid a = a ∨ firstInvalid a = 0x1000#16 := by
  rw [firstInvalid]
  split
  · exact .inl rfl
  · exact .inr rfl

/-- The address fault of an access that starts at `PC` or at `I` fits the state it is taken in (R252). -/
theorem State.Inv.setFault_firstInvalid (h : s.Inv) {a : Addr} (ha : a = s.pc ∨ a = s.i) (hhigh : 0xFF1 ≤ a.toNat) :
    (s.setFault (some (.memoryAddressFault (firstInvalid a)))).Inv := by
  refine h.setFault ⟨?_, ?_⟩
  · rw [firstInvalid_toNat hhigh]
    omega
  · rcases firstInvalid_eq_or a with e | e <;> rw [e]
    · exact ha.imp_right .inl
    · exact .inr (.inr rfl)

theorem pc_add_toNat (hpc : s.pc.toNat ≤ 0xFFE) {n : Nat} (hn : n ≤ 4) :
    (s.pc + BitVec.ofNat 16 n).toNat = s.pc.toNat + n := addr_toNat_add (by omega)

/-- Every instruction of a running state that could be fetched keeps the invariant. -/
theorem exec_keeps_inv (i : Instr) (h : s.Inv) (hs : s.fault = none) (hpc : s.pc.toNat ≤ 0xFFE) :
    ∃ t, exec i s = .next t ∧ t.Inv := by
  have hpc2 : (s.pc + 2).toNat = s.pc.toNat + 2 := pc_add_toNat hpc (n := 2) (by omega)
  have hpc4 : (s.pc + 4).toNat = s.pc.toNat + 4 := pc_add_toNat hpc (n := 4) (by omega)
  have advanced {t : State} (ht : t.pc = s.pc + 2) (hmem : t.mem = s.mem) (hstack : t.stack = s.stack)
      (hfault : t.fault = s.fault) : t.Inv := h.of_pc hs (by rw [ht]; omega) hmem hstack hfault
  have jumped {a : Addr} (ha : a.toNat ≤ 0x10FE) : (s.setPc a).Inv := h.of_pc hs ha rfl rfl rfl
  have skipped (p : Prop) [Decidable p] : (s.setPc (if p then s.pc + 4 else s.pc + 2)).Inv :=
    jumped (by split <;> omega)
  have skipped' (p : Prop) [Decidable p] : (s.setPc (if p then s.pc + 2 else s.pc + 4)).Inv :=
    jumped (by split <;> omega)
  have faulted {i : Instr} (hi : touchesInvalid i s) : ∃ t, exec i s = .next t ∧ t.Inv := by
    obtain ⟨hhigh, he⟩ := exec_address_fault i s hi
    exact ⟨_, he, h.setFault_firstInvalid (.inr rfl) hhigh⟩
  have stored {bs : List Byte} (hbs : s.i.toNat + bs.length ≤ 0x1000) :
      (s.advance.setMem (memSetMany s.mem s.i.toNat bs)).Inv :=
    (advanced (t := s.advance) rfl rfl rfl rfl).setMem (memSetMany_wf bs h.memory hbs)
  have himm (nnn : Imm12) : (addrOfImm nnn).toNat ≤ 0xFFF := by
    have := nnn.isLt
    rw [addrOfImm_toNat]
    omega
  cases i with
  | ret =>
    rcases List.eq_nil_or_concat s.stack with hnil | ⟨rest, a, hstack⟩
    · exact ⟨_, exec_ret_of_empty s hnil, h.setFault hnil⟩
    · rw [List.concat_eq_append] at hstack
      have hret : ∀ b ∈ rest ++ [a], 0x0002 ≤ b.toNat ∧ b.toNat ≤ 0x1000 := hstack ▸ h.returnAddresses
      refine ⟨_, exec_ret_of_stack s hstack, h.memory, ?_, fun b hb => hret b (List.mem_append_left _ hb),
        State.faultFits_of_none hs⟩
      exact (hret a (by simp)).2.trans (by decide)
  | jp nnn => exact ⟨_, exec_jp nnn s, jumped ((himm nnn).trans (by decide))⟩
  | call nnn =>
    refine ⟨_, exec_call s nnn, h.memory, (himm nnn).trans (by decide), fun b hb => ?_,
      State.faultFits_of_none hs⟩
    rcases List.mem_append.1 hb with hb | hb
    · exact h.returnAddresses b hb
    · rw [List.mem_singleton.1 hb]
      omega
  | jpV0 nnn =>
    refine ⟨_, exec_jpV0 nnn s, jumped ?_⟩
    have := nnn.isLt
    have := (s.reg 0).isLt
    rw [addrOfImm_add_addrOfByte_toNat]
    omega
  | seXNN x nn => exact ⟨_, exec_seXNN x nn s, skipped _⟩
  | sneXNN x nn => exact ⟨_, exec_sneXNN x nn s, skipped' _⟩
  | seXY x y => exact ⟨_, exec_seXY x y s, skipped _⟩
  | sneXY x y => exact ⟨_, exec_sneXY x y s, skipped' _⟩
  | skp x => exact ⟨_, exec_skp s x, skipped _⟩
  | sknp x => exact ⟨_, exec_sknp s x, skipped' _⟩
  | ldXK x =>
    cases hk : lowestKey s with
    | none => exact ⟨_, exec_ldXK_of_none s x hk, h⟩
    | some k => exact ⟨_, exec_ldXK_of_some s x hk, advanced rfl rfl rfl rfl⟩
  | drw x y n =>
    by_cases hi : touchesInvalid (.drw x y n) s
    · exact faulted hi
    · exact ⟨_, exec_drw_of_valid s hi, advanced rfl rfl rfl rfl⟩
  | ldRegs x =>
    by_cases hi : touchesInvalid (.ldRegs x) s
    · exact faulted hi
    · exact ⟨_, exec_ldRegs_of_valid s hi, advanced rfl rfl rfl rfl⟩
  | ldBX x =>
    by_cases hi : touchesInvalid (.ldBX x) s
    · exact faulted hi
    · refine ⟨_, exec_ldBX_of_valid s hi, stored ?_⟩
      simp only [touchesInvalid] at hi
      rw [decimalDigits_length]
      omega
  | stRegs x =>
    by_cases hi : touchesInvalid (.stRegs x) s
    · exact faulted hi
    · refine ⟨_, exec_stRegs_of_valid s hi, stored ?_⟩
      simp only [touchesInvalid] at hi
      rw [regsUpTo_length]
      omega
  | _ => exact ⟨_, rfl, advanced rfl rfl rfl rfl⟩

end

/-- Settles O17: the halted step is the identity, the fault of a fetch fits its state, and a fetched instruction keeps
the invariant by the lemma over all instructions. -/
theorem stepKeepsTheInvariant : Obligations.StepKeepsTheInvariant := by
  intro s t h hstep
  by_cases hs : s.fault = none
  · obtain ⟨hpc, -, hfault⟩ | ⟨hpc, w, hf, -⟩ := step_fault_cases hs
    · rw [Host.Outcome.next.inj (hstep.symm.trans hfault)]
      exact h.setFault_firstInvalid (.inl rfl) (by omega)
    · obtain ⟨u, he, hu⟩ := exec_keeps_inv (decodeWord w) h hs hpc
      obtain ⟨f, he', rfl⟩ | ⟨u', he', -, rfl⟩ := step_fetched_cases hs hf hstep
      · exact Host.Outcome.next.inj (he.symm.trans he') ▸ hu
      · exact (Host.Outcome.next.inj (he.symm.trans he') ▸ hu).tickTimers
  · exact Host.Outcome.next.inj ((step_of_fault hs).symm.trans hstep) ▸ h

/-! ### resets and the host's moves -/

theorem reset_inv : State.reset.Inv where
  memory := reset_memory_wf
  pcBound := by decide
  returnAddresses := by simp [State.reset]
  faultFits := State.faultFits_of_none rfl

theorem resetWithFont_inv (font : Vector Byte 80) : (State.resetWithFont font).Inv where
  memory := by
    rw [State.resetWithFont_mem]
    exact resetMemory_wf font
  pcBound := by
    rw [State.resetWithFont_pc]
    decide
  returnAddresses := by simp
  faultFits := State.faultFits_of_none (State.resetWithFont_fault font)

/-- Settles O16: the reset state has PC 0x200, an empty stack and no fault, and its memory is canonical for any font. -/
theorem invariantHoldsAtReset : Obligations.InvariantHoldsAtReset := ⟨reset_inv, resetWithFont_inv⟩

/-- A step as a move is the step. -/
theorem applyMove_step {s t : State} (h : step s = .next t) : applyMove .step s = t := by simp [applyMove, h]

theorem applyMove_host_of_ok {m : HostMove} {s t : State} (h : hostMove m s = .ok t) : applyMove (.host m) s = t := by
  simp [applyMove, h]

/-- Everything a host move can do: the reset, a write of memory within 0x200 to 0xFFF, a write of one key level, or
nothing (R262 to R265, R290). -/
theorem applyMove_host_cases (m : HostMove) (s : State) :
    (m = .reset ∧ applyMove (.host m) s = hostReset s) ∨
    (∃ bytes : List Byte, bytes.length ≤ 3584 ∧ applyMove (.host m) s = s.setMem (memSetMany s.mem 0x200 bytes)) ∨
    (∃ keys, applyMove (.host m) s = s.setKeys keys) ∨
    applyMove (.host m) s = s := by
  cases m with
  | reset => exact .inl ⟨rfl, rfl⟩
  | loadProgram bytes =>
    obtain ⟨hlen, hok⟩ | ⟨-, herr⟩ := loadProgram_cases bytes s
    · exact .inr (.inl ⟨bytes, hlen, applyMove_host_of_ok hok⟩)
    · exact .inr (.inr (.inr (applyMove_host_of_error herr)))
  | keyDown key =>
    obtain ⟨_, hok⟩ | ⟨-, herr⟩ := setKey_cases key true s
    · exact .inr (.inr (.inl ⟨_, applyMove_host_of_ok hok⟩))
    · exact .inr (.inr (.inr (applyMove_host_of_error herr)))
  | keyUp key =>
    obtain ⟨_, hok⟩ | ⟨-, herr⟩ := setKey_cases key false s
    · exact .inr (.inr (.inl ⟨_, applyMove_host_of_ok hok⟩))
    · exact .inr (.inr (.inr (applyMove_host_of_error herr)))

/-- The host's reset keeps the two fields that are no state of the machine, and the invariant does not speak of them. -/
theorem hostReset_inv (s : State) : (hostReset s).Inv where
  memory := (resetWithFont_inv s.font).memory
  pcBound := (resetWithFont_inv s.font).pcBound
  returnAddresses := (resetWithFont_inv s.font).returnAddresses
  faultFits := (resetWithFont_inv s.font).faultFits

theorem applyMove_keeps_inv (m : Move) {s : State} (h : s.Inv) : (applyMove m s).Inv := by
  cases m with
  | step =>
    obtain ⟨t, ht⟩ := everyStepAnswersANextState s
    exact applyMove_step ht ▸ stepKeepsTheInvariant s t h ht
  | host m =>
    obtain ⟨-, e⟩ | ⟨bytes, hlen, e⟩ | ⟨keys, e⟩ | e := applyMove_host_cases m s <;> rw [e]
    · exact hostReset_inv s
    · exact h.setMem (memSetMany_wf bytes h.memory (by omega))
    · exact h.setKeys keys
    · exact h

/-- What every move of a list keeps holds after all of them. -/
theorem applyMoves_induction {P : State → Prop} (ms : List Move) (h : ∀ m ∈ ms, ∀ s, P s → P (applyMove m s)) :
    ∀ s, P s → P (applyMoves ms s) := by
  induction ms with
  | nil => exact fun _ hs => hs
  | cons m ms ih =>
    exact fun s hs => ih (fun m' hm' => h m' (List.mem_cons_of_mem _ hm')) _ (h m List.mem_cons_self s hs)

/-- Settles O18: one move at a time. -/
theorem everyMoveSequenceKeepsTheInvariant : Obligations.EveryMoveSequenceKeepsTheInvariant :=
  fun ms => applyMoves_induction ms fun m _ _ h => applyMove_keeps_inv m h

/-- A move that is no reset leaves a halted state but for memory and the key levels. -/
theorem applyMove_of_fault {m : Move} (hm : m ≠ .host .reset) {s : State} (hs : s.fault ≠ none) :
    SameBut [.mem, .keys] s (applyMove m s) := by
  cases m with
  | step =>
    rw [applyMove_step (step_of_fault hs)]
    exact SameBut.refl _ s
  | host m =>
    obtain ⟨rfl, -⟩ | ⟨bytes, -, e⟩ | ⟨keys, e⟩ | e := applyMove_host_cases m s
    · exact absurd rfl hm
    · exact e ▸ (sameBut_setMem s _).mono (by simp)
    · exact e ▸ (sameBut_setKeys s _).mono (by simp)
    · exact e.symm ▸ SameBut.refl _ s

/-- Settles O19: by the moves in turn; the latch is among the components each of them leaves. -/
theorem onlyResetClearsALatchedFault : Obligations.OnlyResetClearsALatchedFault := by
  intro ms s hs hms
  have hframe : SameBut [.mem, .keys] s (applyMoves ms s) := by
    refine applyMoves_induction (P := SameBut [.mem, .keys] s) ms (fun m hm t ht => ?_) s (SameBut.refl _ s)
    have hfault : t.fault = s.fault := ht .fault (by simp)
    exact ht.trans (applyMove_of_fault (fun e => hms (e ▸ hm)) (hfault ▸ hs))
  exact ⟨hframe .fault (by simp), hframe⟩

end Sys2Proof.Machine
end

section
/-! SUPPORT. Runs and fetches of whole programs: the walk through zero memory (spec/70_reset_and_hazards.md R297, R305),
a store over the next instruction (spec/20_memory.md R73, R76), a call and its return (spec/41_control_flow.md). -/

namespace Sys2Proof.Machine

/-- A run of one step more is the run and then that step. -/
theorem run_succ_last {t u : State} : ∀ (n : Nat) {s : State}, Host.Core.run Sys2Proof.core n s = .next t →
    step t = .next u → Host.Core.run Sys2Proof.core (n + 1) s = .next u
  | 0, s, h, hu => by
    rw [run_zero] at h
    rw [run_succ ((Host.Outcome.next.inj h).symm ▸ hu), run_zero]
  | n + 1, s, h, hu => by
    obtain ⟨s', hs'⟩ := everyStepAnswersANextState s
    rw [run_succ hs'] at h ⊢
    exact run_succ_last n h hu

/-- `UNIMPL` in a running step: the advance, one report and the tick. -/
theorem step_unimpl {s : State} {w : Word} (hs : s.fault = none) (hf : fetch s = .ok w)
    (hd : decodeWord w = .unimpl w) : step s = .next (s.advance.report s.pc w).tickTimers :=
  step_eq_tickTimers hs hf hd (exec_unimpl s w) rfl

theorem decodeWord_zero : decodeWord 0x0000#16 = .unimpl 0x0000#16 := (unrecognizedSpaceIsUnimpl 0#16).1.1 (by decide)

/-- Two zero bytes at `PC` are the word 0x0000 (R64). -/
theorem fetch_of_zero_bytes {s : State} (hpc : s.pc.toNat + 2 ≤ 0x1000)
    (hzero : ∀ a : Addr, s.pc.toNat ≤ a.toNat → a.toNat ≤ 0xFFF → readByte s.mem a = .ok 0#8) :
    fetch s = .ok 0x0000#16 := by
  have hnext : (s.pc + 1).toNat = s.pc.toNat + 1 := addr_toNat_succ (by omega)
  have hhi := hzero s.pc (by omega) (by omega)
  have hlo := hzero (s.pc + 1) (by omega) (by omega)
  simp only [fetch, readWord, hhi, hlo]
  rfl

/-- Settles O58: by induction on the steps, each of which advances by two and leaves the zero bytes after it. -/
theorem zeroMemoryIsWalkedThrough : Obligations.ZeroMemoryIsWalkedThrough := by
  intro s n hs hn hzero
  induction n generalizing s with
  | zero => exact ⟨s, run_zero s, by omega, by omega, SameBut.refl _ s⟩
  | succ n ih =>
    have hstep := step_unimpl hs (fetch_of_zero_bytes (by omega) hzero) decodeWord_zero
    have hpc : (s.pc + 2).toNat = s.pc.toNat + 2 := addr_toNat_add (k := 2) (by omega)
    obtain ⟨t, hrun, htpc, hreports, hframe⟩ := ih (s.advance.report s.pc 0#16).tickTimers hs
      (by simp only [State.tickTimers_pc, State.report_pc, State.advance_pc]; omega)
      (fun a ha => hzero a (by simp only [State.tickTimers_pc, State.report_pc, State.advance_pc] at ha; omega))
    refine ⟨t, (run_succ hstep n).trans hrun, ?_, ?_, SameBut.trans ?_ hframe⟩
    · simp only [State.tickTimers_pc, State.report_pc, State.advance_pc] at htpc
      omega
    · simp only [State.tickTimers_reports, State.report_reports, State.advance_reports, List.length_append,
        List.length_singleton] at hreports
      omega
    · exact ((sameBut_advance s (by simp)).report (by simp) _ _).tickTimers (by simp) (by simp)

/-- Nothing is loaded at reset: from 0x200 on every byte is zero. -/
theorem readByte_reset_of_program {a : Addr} (ha : 0x200 ≤ a.toNat) (hv : a.toNat ≤ 0xFFF) :
    readByte State.reset.mem a = .ok 0#8 := by
  rw [readByte_ok (by omega)]
  exact congrArg Except.ok (resetByte_outside (by omega))

/-- Settles O24: the walk through zero memory from 0x200, and at its end the fetch at 0x1000. -/
theorem unloadedMemoryIsWalkedToItsEnd : Obligations.UnloadedMemoryIsWalkedToItsEnd := by
  have hpc0 : State.reset.pc.toNat = 0x200 := rfl
  have walk (n : Nat) (hn : n ≤ 1792) : ∃ t, Host.Core.run Sys2Proof.core n State.reset = .next t ∧
      t.pc.toNat = 0x200 + 2 * n ∧ t.fault = none ∧ t.reports.length = n := by
    obtain ⟨t, hrun, hpc, hreports, hframe⟩ := zeroMemoryIsWalkedThrough State.reset n rfl (by omega)
      fun a ha => readByte_reset_of_program ha
    refine ⟨t, hrun, hpc, hframe .fault (by simp), hreports.trans ?_⟩
    exact Nat.zero_add n
  refine ⟨walk, ?_⟩
  obtain ⟨t, hrun, hpc, hfault, -⟩ := walk 1792 le_rfl
  have hend : t.pc = 0x1000#16 := BitVec.eq_of_toNat_eq hpc
  obtain ⟨-, -, hstep⟩ | ⟨hlow, -⟩ := step_fault_cases hfault
  · exact ⟨_, run_succ_last 1792 hrun hstep, by rw [hend]; rfl, hend⟩
  · omega

/-- Settles O20: the two bytes of the next fetch are `V[k]` and `V[k + 1]` as the store left them. -/
theorem storeIsSeenByTheNextFetch : Obligations.StoreIsSeenByTheNextFetch := by
  intro s w x k k' hs hf hd hvalid hk' hkx haddr
  have hx := x.isLt
  have hle : k'.val ≤ x.val := hkx
  have hexec := exec_stRegs_of_valid s (x := x) (by simp only [touchesInvalid]; omega)
  refine ⟨_, step_eq_tickTimers hs hf hd hexec rfl, ?_⟩
  have hpc : (s.pc + 2).toNat = s.i.toNat + k.val := by rw [← haddr, effAddr_toNat (by omega)]
  have byte (q : Reg) (hq : q.val ≤ x.val) :
      memGet (memSetMany s.mem s.i.toNat (regsUpTo s x)) (s.i.toNat + q.val) = s.reg q := by
    have hlen := regsUpTo_length s x
    rw [memGet_memSetMany, dif_pos (by omega)]
    simpa using regsUpTo_getElem s x q (by omega)
  rw [fetch_ok (by simp only [State.tickTimers_pc, State.setMem_pc, State.advance_pc]; omega)]
  simp only [State.tickTimers_pc, State.setMem_pc, State.advance_pc, State.tickTimers_mem, State.setMem_mem, hpc]
  rw [byte k (by omega), Nat.add_assoc, ← hk', byte k' hle]

/-- Settles O30: the call pushes the address after it, and the return found at the target takes it off again. -/
theorem callThenReturnComesBack : Obligations.CallThenReturnComesBack := by
  intro s nnn hs hf htarget
  have hcall := step_eq_tickTimers hs hf (decodeWord_encode fun _ => nofun) (exec_call s nnn) rfl
  have hret := step_eq_tickTimers (s := ((s.setStack (s.stack ++ [s.pc + 2])).setPc (addrOfImm nnn)).tickTimers)
    hs htarget ((decodeWord_eq_ret_iff _).2 rfl) (exec_ret_of_stack _ rfl) rfl
  refine ⟨_, _, hcall, hret, rfl, fun c hc => ?_⟩
  cases c with
  | pc | dt | st => simp at hc
  | mem => exact fun _ => rfl
  | _ => rfl

end Sys2Proof.Machine
end

section
/-! SUPPORT. The canonical form of memory (spec/20_memory.md section 1): the list is determined by what is read. -/

namespace Sys2Proof.Machine

/-- A canonical memory lists exactly the valid addresses that hold another byte than at reset. -/
theorem mem_iff_memGet {m : Memory} (h : Memory.wf m) (c : Host.Cell) :
    c ∈ m ↔ c.1 < memSize ∧ memGet m c.1 = c.2 ∧ c.2 ≠ resetByte c.1 := by
  obtain ⟨hrise, hcells⟩ := h
  have listed : ∀ d ∈ m, memGet m d.1 = d.2 := by
    clear hcells
    induction m with
    | nil => simp
    | cons e m ih =>
      obtain ⟨hlt, hrise⟩ := List.pairwise_cons.1 hrise
      intro d hd
      rcases List.mem_cons.1 hd with rfl | hd
      · simp [memGet]
      · have hne : e.1 ≠ d.1 := (hlt d hd).ne
        simpa [memGet, hne] using ih hrise d hd
  constructor
  · exact fun hc => ⟨(hcells c hc).1, listed c hc, (hcells c hc).2⟩
  · rintro ⟨-, hget, hne⟩
    by_contra hc
    have hunlisted : ∀ d ∈ m, d.1 ≠ c.1 := fun d hd e => by
      have hbyte : d.2 = c.2 := by rw [← listed d hd, e, hget]
      exact hc (Prod.ext e hbyte ▸ hd)
    rw [memGet_above m c.1 hunlisted] at hget
    exact hne hget.symm

/-- Two lists of cells with rising addresses and the same cells are the same list. -/
theorem rising_ext {m m' : Memory} (h : m.Pairwise (fun c d => c.1 < d.1)) (h' : m'.Pairwise (fun c d => c.1 < d.1))
    (hmem : ∀ c, c ∈ m ↔ c ∈ m') : m = m' := by
  have nodup {l : Memory} (hl : l.Pairwise (fun c d => c.1 < d.1)) : l.Nodup :=
    hl.imp fun hlt e => (e ▸ hlt).ne rfl
  exact ((List.perm_ext_iff_of_nodup (nodup h) (nodup h')).2 hmem).eq_of_pairwise
    (fun _ _ _ _ hlt hgt => absurd (hlt.trans hgt) (lt_irrefl _)) h h'

/-- Settles O25: the two lists have the same cells, because they read alike, and both rise. -/
theorem canonicalMemoriesThatReadAlikeAreEqual : Obligations.CanonicalMemoriesThatReadAlikeAreEqual := by
  intro m m' h h' hread
  have hget : ∀ a, a < memSize → memGet m a = memGet m' a := by
    intro a ha
    have hnum : (BitVec.ofNat 16 a).toNat = a := by
      rw [BitVec.toNat_ofNat]
      exact Nat.mod_eq_of_lt (ha.trans (by decide))
    have hr := hread (BitVec.ofNat 16 a)
    rw [readByte_ok (hnum.symm ▸ ha), readByte_ok (hnum.symm ▸ ha), hnum] at hr
    exact Except.ok.inj hr
  refine rising_ext h.1 h'.1 fun c => ?_
  rw [mem_iff_memGet h, mem_iff_memGet h']
  constructor
  · exact fun ⟨hc, hb, hne⟩ => ⟨hc, (hget _ hc).symm.trans hb, hne⟩
  · exact fun ⟨hc, hb, hne⟩ => ⟨hc, (hget _ hc).trans hb, hne⟩

end Sys2Proof.Machine
end

section
namespace Sys2Proof.Machine

/-- Settles O27: one push and one write of `PC`. -/
theorem callPushesTheReturnAddress : Obligations.CallPushesTheReturnAddress := by
  refine ⟨encodedAs_of_mem (r := rowNNN 0x2000#16 .call) (by simp [opcodeMap, opcodeMapLow]), fun nnn s => ?_⟩
  exact ⟨_, exec_call s nnn, rfl, addrOfImm_toNat nnn,
    ((SameBut.refl _ s).setStack (by simp) _).setPc (by simp) _⟩

/-- Settles O28: the last element of the stack becomes `PC`, or there is none and the step ends with the latch set. -/
theorem returnPopsOrUnderflows : Obligations.ReturnPopsOrUnderflows := by
  refine ⟨encodedAs_of_mem (r := rowOP 0x00EE#16 .ret) (by simp [opcodeMap, opcodeMapLow]),
    fun s => ⟨fun rest a h => ?pops, fun h => ?underflows, fun h hs hf => ?step⟩⟩
  case pops =>
    exact ⟨_, exec_ret_of_stack s h, rfl, rfl, ((SameBut.refl _ s).setStack (by simp) _).setPc (by simp) _⟩
  case underflows => exact exec_ret_of_empty s h
  case step =>
    rw [step_of_fetch hs hf, (decodeWord_eq_ret_iff _).2 rfl, exec_ret_of_empty s h]
    rfl

/-- Settles O31: the one write after the advance is that of `V[X]`; the logic is bit by bit. -/
theorem loadsAndLogicWriteOneRegister : Obligations.LoadsAndLogicWriteOneRegister := by
  refine ⟨encodedAs_of_mem (r := rowXNN 0x6000#16 .ldXNN) (by simp [opcodeMap, opcodeMapLow]),
    encodedAs_of_mem (r := rowXY 0x8000#16 .ldXY) (by simp [opcodeMap, opcodeMapMid]),
    encodedAs_of_mem (r := rowXY 0x8001#16 .orXY) (by simp [opcodeMap, opcodeMapMid]),
    encodedAs_of_mem (r := rowXY 0x8002#16 .andXY) (by simp [opcodeMap, opcodeMapMid]),
    encodedAs_of_mem (r := rowXY 0x8003#16 .xorXY) (by simp [opcodeMap, opcodeMapMid]), fun x y nn s => ?_⟩
  have frame (b : Byte) : SameBut [.pc, .reg x] s (s.advance.setReg x b) :=
    (sameBut_advance s (by simp)).setReg (by simp) b
  have written (b : Byte) : (s.advance.setReg x b).reg x = b := by simp
  exact ⟨⟨_, exec_ldXNN s x nn, rfl, frame _, written _⟩, ⟨_, exec_ldXY s x y, rfl, frame _, written _⟩,
    ⟨_, exec_orXY s x y, rfl, frame _, fun k => by rw [written, BitVec.getLsbD_or]⟩,
    ⟨_, exec_andXY s x y, rfl, frame _, fun k => by rw [written, BitVec.getLsbD_and]⟩,
    ⟨_, exec_xorXY s x y, rfl, frame _, fun k => by rw [written, BitVec.getLsbD_xor]⟩⟩

/-- Settles O37: one draw, and the write of the masked byte. -/
theorem randomByteIsMasked : Obligations.RandomByteIsMasked := by
  refine ⟨encodedAs_of_mem (r := rowXNN 0xC000#16 .rnd) (by simp [opcodeMap, opcodeMapHigh]),
    fun x nn s => ⟨_, exec_rnd s x nn, rfl, fun k => ?byte, rfl, ?frame⟩⟩
  case byte => rw [State.setReg_reg, if_pos rfl, BitVec.getLsbD_and]
  case frame => exact ((sameBut_advance s (by simp)).drawn (by simp)).setReg (by simp) _

/-- Settles O38: the one write after the advance is that of `I`. -/
theorem indexIsLoadedAndAdded : Obligations.IndexIsLoadedAndAdded := by
  refine ⟨encodedAs_of_mem (r := rowNNN 0xA000#16 .ldI) (by simp [opcodeMap, opcodeMapHigh]),
    encodedAs_of_mem (r := rowX 0xF01E#16 .addIX) (by simp [opcodeMap, opcodeMapHigh]), fun nnn x s => ?_⟩
  have frame (a : Addr) : SameBut [.pc, .i] s (s.advance.setI a) := (sameBut_advance s (by simp)).setI (by simp) a
  refine ⟨⟨_, exec_ldI s nnn, rfl, addrOfImm_toNat nnn, frame _⟩, ⟨_, exec_addIX s x, rfl, ?sum, frame _⟩⟩
  case sum => rw [State.setI_i, BitVec.toNat_add, addrOfByte_toNat]

/-- R192: the largest glyph address is 0x050 + 5 * 255, so it does not wrap. -/
theorem glyphAddr_toNat (b : Byte) : (glyphAddr b).toNat = 0x050 + 5 * b.toNat := by
  have hb : b.toNat < 2 ^ 8 := b.isLt
  rw [glyphAddr, BitVec.toNat_ofNat, fontBase]
  exact Nat.mod_eq_of_lt (by omega)

/-- Settles O39: the one write after the advance is that of `I`, with an address that does not wrap. -/
theorem glyphAddressIsFiveTimesTheDigit : Obligations.GlyphAddressIsFiveTimesTheDigit :=
  ⟨encodedAs_of_mem (r := rowX 0xF029#16 .ldFX) (by simp [opcodeMap, opcodeMapHigh]),
    fun x s => ⟨_, exec_ldFX s x, rfl, glyphAddr_toNat (s.reg x), (sameBut_advance s (by simp)).setI (by simp) _⟩⟩

/-- Settles O51: one report of the old `PC` and the word. -/
theorem unrecognizedWordIsReportedAndSkipped : Obligations.UnrecognizedWordIsReportedAndSkipped :=
  fun w s => ⟨_, exec_unimpl s w, rfl, rfl, (sameBut_advance s (by simp)).report (by simp) _ _⟩

end Sys2Proof.Machine
end

section
/-! SUPPORT. Flag and result of the five flag instructions as numbers (spec/42_load_alu.md R160, R167 to R174). -/

namespace Sys2Proof.Machine

section
variable (s : State)

/-- After the flag and then the result: `V[X]` is the result, and `VF` the flag unless the result went there. -/
theorem flagged_setReg_frame (x : Reg) (c : Bool) (b : Byte) :
    SameBut [.pc, .reg x, .reg regF] s ((s.flagged c).setReg x b) :=
  ((sameBut_advance s (by simp)).setReg (by simp) _).setReg (by simp) _

theorem flagged_setReg_flag {x : Reg} (hx : x ≠ regF) (c : Bool) (b : Byte) :
    (((s.flagged c).setReg x b).reg regF).toNat = if c then 1 else 0 := by
  rw [State.setReg_reg, if_neg hx.symm, State.flagged, State.setReg_reg, if_pos rfl, flagByte_toNat]

/-- A register as R160 reads it for the result: `VF` already holds the flag. -/
theorem flagged_reg_toNat (c : Bool) (r : Reg) :
    ((s.flagged c).reg r).toNat = if r = regF then (if c then 1 else 0) else (s.reg r).toNat := by
  rw [State.flagged, State.setReg_reg]
  split
  · exact flagByte_toNat c
  · rfl

theorem noBorrow_flag (a b : Byte) : (if noBorrow a b then 1 else 0) = if b.toNat ≤ a.toNat then 1 else 0 := by
  simp [noBorrow]

/-- The difference of two registers as R160 reads them, written to `V[X]`: modulo 256, with the flag for `VF`. -/
theorem flagged_sub_toInt {c : Bool} {flag : Nat} (hc : (if c then 1 else 0) = flag) (x p q : Reg) :
    ((((s.flagged c).setReg x ((s.flagged c).reg p - (s.flagged c).reg q)).reg x).toNat : Int) =
      ((if p = regF then (flag : Int) else (s.reg p).toNat) - if q = regF then (flag : Int) else (s.reg q).toNat) %
        256 := by
  have hsub (a b : Byte) : ((a - b).toNat : Int) = ((a.toNat : Int) - b.toNat) % 256 := by
    rw [BitVec.toNat_sub]
    omega
  rw [State.setReg_reg, if_pos rfl, hsub, flagged_reg_toNat, flagged_reg_toNat, hc]
  push_cast
  rfl

/-- The bit `8XY6` shifts out is the remainder of the division by two (R169). -/
theorem shiftedOutRight_flag (b : Byte) : (if shiftedOutRight b then 1 else 0) = b.toNat % 2 := by
  have h : shiftedOutRight b = decide (b.toNat % 2 = 1) := by
    simp [shiftedOutRight, BitVec.getLsbD, Nat.testBit_zero]
  rcases Nat.mod_two_eq_zero_or_one b.toNat with e | e <;> simp [h, e]

/-- The bit `8XYE` shifts out is set from 128 on (R171). -/
theorem shiftedOutLeft_flag (b : Byte) : (if shiftedOutLeft b then 1 else 0) = b.toNat / 128 := by
  have hb : b.toNat < 2 ^ 8 := b.isLt
  have h : shiftedOutLeft b = decide (b.toNat / 128 % 2 = 1) := by
    simp [shiftedOutLeft, BitVec.getLsbD, Nat.testBit_eq_decide_div_mod_eq]
  have hbit : b.toNat / 128 = 0 ∨ b.toNat / 128 = 1 := by omega
  rcases hbit with e | e <;> simp [h, e]

end

/-- Settles O34: the flag is that of the old registers, the difference that of the registers after it. -/
theorem subtractionsWriteFlagThenResult : Obligations.SubtractionsWriteFlagThenResult := by
  refine ⟨encodedAs_of_mem (r := rowXY 0x8005#16 .sub) (by simp [opcodeMap, opcodeMapMid]),
    encodedAs_of_mem (r := rowXY 0x8007#16 .subn) (by simp [opcodeMap, opcodeMapMid]), fun x y s => ⟨?_, ?_⟩⟩
  · exact ⟨_, exec_sub s x y, rfl, flagged_sub_toInt s (noBorrow_flag _ _) x x y,
      fun hx => (flagged_setReg_flag s hx _ _).trans (noBorrow_flag _ _), flagged_setReg_frame s x _ _⟩
  · exact ⟨_, exec_subn s x y, rfl, flagged_sub_toInt s (noBorrow_flag _ _) x y x,
      fun hx => (flagged_setReg_flag s hx _ _).trans (noBorrow_flag _ _), flagged_setReg_frame s x _ _⟩

/-- Settles O35: the flag is a bit of the old `V[Y]`, the shifted byte that of the registers after it. -/
theorem shiftsWriteFlagThenResult : Obligations.ShiftsWriteFlagThenResult := by
  refine ⟨encodedAs_of_mem (r := rowXY 0x8006#16 .shr) (by simp [opcodeMap, opcodeMapMid]),
    encodedAs_of_mem (r := rowXY 0x800E#16 .shl) (by simp [opcodeMap, opcodeMapMid]), fun x y s => ⟨?_, ?_⟩⟩
  · refine ⟨_, exec_shr s x y, rfl, ?_, fun hx => ?_, flagged_setReg_frame s x _ _⟩
    · rw [State.setReg_reg, if_pos rfl, BitVec.toNat_ushiftRight, flagged_reg_toNat, shiftedOutRight_flag,
        Nat.shiftRight_eq_div_pow]
    · rw [flagged_setReg_flag s hx, shiftedOutRight_flag]
  · refine ⟨_, exec_shl s x y, rfl, ?_, fun hx => ?_, flagged_setReg_frame s x _ _⟩
    · rw [State.setReg_reg, if_pos rfl, BitVec.toNat_shiftLeft, flagged_reg_toNat, shiftedOutLeft_flag,
        Nat.shiftLeft_eq]
    · rw [flagged_setReg_flag s hx, shiftedOutLeft_flag]

/-- Settles O36: each row is its instruction's statement for every `X` and `Y`, at one of the three aliasings. -/
theorem aliasingTableHolds : Obligations.AliasingTableHolds := by
  intro r s hr f0 r0 ge carry v
  obtain ⟨-, hadd⟩ := addSetsTheCarry
  obtain ⟨-, -, hsub⟩ := subtractionsWriteFlagThenResult
  obtain ⟨-, -, hshift⟩ := shiftsWriteFlagThenResult
  refine ⟨?addFr, ?addrF, ?addFF, ?subFr, ?subrF, ?subFF, ?shrFr, ?shrrF, ?shrFF, ?subnFr, ?subnrF, ?subnFF, ?shlFr,
    ?shlrF, ?shlFF⟩
  case addFr =>
    obtain ⟨t, he, -, hres, -⟩ := hadd regF r s
    exact ⟨t, he, by simp [v, f0, r0, hres]⟩
  case addrF =>
    obtain ⟨t, he, -, hres, hflag, -⟩ := hadd r regF s
    exact ⟨t, he, by simp [v, f0, r0, hres], by simp only [v, f0, r0, carry, hflag hr]; split <;> split <;> omega⟩
  case addFF =>
    obtain ⟨t, he, -, hres, -⟩ := hadd regF regF s
    exact ⟨t, he, by simp only [v, f0, hres]; omega⟩
  case subFr =>
    obtain ⟨t, he, -, hres, -⟩ := (hsub regF r s).1
    exact ⟨t, he, by simpa [v, f0, r0, ge, hr] using hres⟩
  case subrF =>
    obtain ⟨t, he, -, hres, hflag, -⟩ := (hsub r regF s).1
    exact ⟨t, he, by simpa [v, f0, r0, ge, hr] using hres, by simp [v, f0, r0, ge, hflag hr]⟩
  case subFF =>
    obtain ⟨t, he, -, hres, -⟩ := (hsub regF regF s).1
    exact ⟨t, he, by simpa [v] using hres⟩
  case shrFr =>
    obtain ⟨t, he, -, hres, -⟩ := (hshift regF r s).1
    exact ⟨t, he, by simp [v, r0, hres, hr]⟩
  case shrrF =>
    obtain ⟨t, he, -, hres, hflag, -⟩ := (hshift r regF s).1
    exact ⟨t, he, by simp only [v, hres, ↓reduceIte]; omega, by simp [v, f0, hflag hr]⟩
  case shrFF =>
    obtain ⟨t, he, -, hres, -⟩ := (hshift regF regF s).1
    exact ⟨t, he, by simp only [v, hres, ↓reduceIte]; omega⟩
  case subnFr =>
    obtain ⟨t, he, -, hres, -⟩ := (hsub regF r s).2
    exact ⟨t, he, by simpa [v, f0, r0, ge, hr] using hres⟩
  case subnrF =>
    obtain ⟨t, he, -, hres, hflag, -⟩ := (hsub r regF s).2
    exact ⟨t, he, by simpa [v, f0, r0, ge, hr] using hres, by simp [v, f0, r0, ge, hflag hr]⟩
  case subnFF =>
    obtain ⟨t, he, -, hres, -⟩ := (hsub regF regF s).2
    exact ⟨t, he, by simpa [v] using hres⟩
  case shlFr =>
    obtain ⟨t, he, -, hres, -⟩ := (hshift regF r s).2
    exact ⟨t, he, by simp [v, r0, hres, hr]⟩
  case shlrF =>
    obtain ⟨t, he, -, hres, hflag, -⟩ := (hshift r regF s).2
    exact ⟨t, he, by simp only [v, f0, hres, ↓reduceIte]; omega, by simp [v, f0, hflag hr]⟩
  case shlFF =>
    obtain ⟨t, he, -, hres, -⟩ := (hshift regF regF s).2
    exact ⟨t, he, by simp only [v, f0, hres, ↓reduceIte]; omega⟩

end Sys2Proof.Machine
end

section
/-! SUPPORT. A byte string stored from `I` upward (spec/43_index_memory.md R194, R195): what reads back, and where. -/

namespace Sys2Proof.Machine

section
variable {s : State} {bs : List Byte}

theorem readByte_stored (hlen : s.i.toNat + bs.length ≤ 0x1000) {k : Nat} (hk : k < bs.length) :
    readByte (memSetMany s.mem s.i.toNat bs) (effAddr s k) = .ok bs[k] := by
  have haddr : effAddr s k = BitVec.ofNat 16 (s.i.toNat + k) := BitVec.eq_of_toNat_eq <| by
    rw [effAddr_toNat (by omega), BitVec.toNat_ofNat]
    exact (Nat.mod_eq_of_lt (by omega)).symm
  rw [haddr, readByte_memSetMany_getElem s.mem hlen hk]

/-- An address that is none of `I`, …, `I + length - 1` lies outside the stored string. -/
theorem readByte_not_stored (hlen : s.i.toNat + bs.length ≤ 0x1000) {a : Addr}
    (ha : ∀ k, k < bs.length → a ≠ effAddr s k) : readByte (memSetMany s.mem s.i.toNat bs) a = readByte s.mem a := by
  refine readByte_memSetMany_outside s.mem ?_
  by_contra hin
  refine ha (a.toNat - s.i.toNat) (by omega) (BitVec.eq_of_toNat_eq ?_)
  rw [effAddr_toNat (by omega)]
  omega

end

/-- Settles O40: the three digits are one stored string. -/
theorem decimalDigitsAreStored : Obligations.DecimalDigitsAreStored := by
  refine ⟨encodedAs_of_mem (r := rowX 0xF033#16 .ldBX) (by simp [opcodeMap, opcodeMapHigh]),
    fun x s => ⟨fun hvalid => ?stored, fun hinvalid => exec_of_touchesInvalid hinvalid⟩⟩
  have hexec := exec_ldBX_of_valid s (x := x) (Nat.not_lt.2 hvalid)
  have hlen : s.i.toNat + (decimalDigits (s.reg x)).length ≤ 0x1000 := by
    rw [decimalDigits_length]
    omega
  refine ⟨_, hexec, rfl, readByte_stored hlen (k := 0) (by simp), readByte_stored hlen (k := 1) (by simp),
    readByte_stored hlen (k := 2) (by simp), fun a h0 h1 h2 => readByte_not_stored hlen fun k hk => ?_,
    (sameBut_advance s (by simp)).setMem (by simp) _⟩
  rw [decimalDigits_length] at hk
  interval_cases k
  · exact h0
  · exact h1
  · exact h2

/-- Settles O41: the registers are one stored string. -/
theorem registersAreStored : Obligations.RegistersAreStored := by
  refine ⟨encodedAs_of_mem (r := rowX 0xF055#16 .stRegs) (by simp [opcodeMap, opcodeMapHigh]),
    fun x s => ⟨fun hvalid => ?stored, fun hinvalid => exec_of_touchesInvalid hinvalid⟩⟩
  have hx := x.isLt
  have hexec := exec_stRegs_of_valid s (x := x) (Nat.not_lt.2 hvalid)
  have hregs := regsUpTo_length s x
  have hlen : s.i.toNat + (regsUpTo s x).length ≤ 0x1000 := by omega
  refine ⟨_, hexec, rfl, fun k hk => ?_, fun a ha => readByte_not_stored hlen fun k hk => ?_,
    (sameBut_advance s (by simp)).setMem (by simp) _⟩
  · have hlt : k.val < (regsUpTo s x).length := by
      have hle : k.val ≤ x.val := hk
      omega
    exact (readByte_stored hlen hlt).trans (congrArg Except.ok (regsUpTo_getElem s x k hlt))
  · exact ha ⟨k, by omega⟩ (Fin.le_def.2 (by simp only; omega))

/-- Settles O42: the loaded string is the bytes of memory from `I`, and it reaches the registers up to `X`. -/
theorem registersAreLoaded : Obligations.RegistersAreLoaded := by
  refine ⟨encodedAs_of_mem (r := rowX 0xF065#16 .ldRegs) (by simp [opcodeMap, opcodeMapHigh]),
    fun x s => ⟨fun hvalid => ?loaded, fun hinvalid => exec_of_touchesInvalid hinvalid⟩⟩
  have hx := x.isLt
  have hexec := exec_ldRegs_of_valid s (x := x) (Nat.not_lt.2 hvalid)
  refine ⟨_, hexec, rfl, fun k hk => ?_, (sameBut_advance s (by simp)).loadRegs fun r hr => ?_⟩
  · have hle : k.val ≤ x.val := hk
    have haddr : (effAddr s k.val).toNat = s.i.toNat + k.val := effAddr_toNat (by omega)
    rw [readByte_ok (by omega), haddr, State.loadRegs_reg, dif_pos (by rw [memBytes_length]; omega), memBytes_getElem]
  · rw [memBytes_length] at hr
    have hle : r ≤ x := Fin.le_def.2 (by omega)
    simp [hle]

end Sys2Proof.Machine
end

section
/-! SUPPORT. The display (spec/44_display.md): clearing, drawing, and the flat snapshot. -/

namespace Sys2Proof.Machine

/-- Settles O43: the one write after the advance is that of the grid. -/
theorem clearTurnsEveryPixelOff : Obligations.ClearTurnsEveryPixelOff :=
  ⟨encodedAs_of_mem (r := rowOP 0x00E0#16 .cls) (by simp [opcodeMap, opcodeMapLow]),
    fun s => ⟨_, exec_cls s, rfl, fun x y _ _ => px_clearGrid x y, (sameBut_advance s (by simp)).setFb (by simp) _⟩⟩

section
variable (s : State) (x y : Reg) (rows : List Byte)

theorem drawSprite_frame : SameBut [.pc, .fb, .reg regF] s (s.drawSprite x y rows) :=
  ((sameBut_advance s (by simp)).setFb (by simp) _).setReg (by simp) _

/-- Every pixel after a draw: the old one XOR the sprite bit aimed at it from the origin of the old registers. -/
theorem px_drawSprite (c r : Nat) : px (s.drawSprite x y rows).fb c r =
    (px s.fb c r ^^ (decide (c < 64 ∧ r < 32) &&
      aimedBit ((s.reg x).toNat % 64) ((s.reg y).toNat % 32) rows c r)) :=
  drawRows_px _ _ rows 0 (s.fb, false) c r

theorem drawSprite_flag_zero_or_one :
    (s.drawSprite x y rows).reg regF = 0#8 ∨ (s.drawSprite x y rows).reg regF = 1#8 := by
  rw [State.drawSprite, State.setReg_reg, if_pos rfl]
  cases (drawRows ((s.reg x).toNat % 64) ((s.reg y).toNat % 32) 0 rows (s.fb, false)).2 with
  | false => exact .inl rfl
  | true => exact .inr rfl

theorem flagByte_eq_one_iff (c : Bool) : flagByte c = 1#8 ↔ c = true := by
  cases c with
  | false => decide
  | true => decide

/-- `VF` after a draw is 1 exactly when some sprite bit was aimed at a lit pixel. -/
theorem drawSprite_flag : (s.drawSprite x y rows).reg regF = 1#8 ↔
    ∃ c r, aimedBit ((s.reg x).toNat % 64) ((s.reg y).toNat % 32) rows c r = true ∧ px s.fb c r = true := by
  rw [State.drawSprite, State.setReg_reg, if_pos rfl, flagByte_eq_one_iff, drawRows_collision]
  simp

end

/-- Only a pixel of the grid can be lit. -/
theorem on_grid_of_px {g : Grid} {c r : Nat} (h : px g c r = true) : c < 64 ∧ r < 32 := by
  by_contra hoff
  rw [px_off_grid g hoff] at h
  cases h

/-- Settles O44: the rows are the bytes of memory from `I`, and the draw of them XORs and collides by the laws of the
grid. -/
theorem drawXorsTheSprite : Obligations.DrawXorsTheSprite := by
  refine ⟨encodedAs_of_mem (r := rowXYN 0xD000#16 .drw) (by simp [opcodeMap, opcodeMapHigh]),
    fun x y n s => ⟨fun hvalid => ?drawn, fun hinvalid => exec_of_touchesInvalid hinvalid⟩⟩
  have hn := n.isLt
  have hexec := exec_drw_of_valid s (x := x) (y := y) (n := n) (by simp only [touchesInvalid]; omega)
  refine ⟨_, memBytes s.mem s.i.toNat n.toNat, memBytes_length _ _ _, fun k hk => ?row, hexec, rfl,
    fun c r hc hr => ?pixel, drawSprite_flag_zero_or_one s x y _, ?collision, drawSprite_frame s x y _⟩
  case row =>
    have haddr : (effAddr s k).toNat = s.i.toNat + k := effAddr_toNat (by omega)
    have hk' : k < (memBytes s.mem s.i.toNat n.toNat).length := by rwa [memBytes_length]
    rw [readByte_ok (by omega), haddr, List.getD_eq_getElem _ _ hk', memBytes_getElem]
  case pixel => simp [px_drawSprite, hc, hr]
  case collision =>
    rw [drawSprite_flag]
    constructor
    · rintro ⟨c, r, haim, hlit⟩
      obtain ⟨hc, hr⟩ := on_grid_of_px hlit
      exact ⟨c, r, hc, hr, haim, hlit⟩
    · rintro ⟨c, r, -, -, haim, hlit⟩
      exact ⟨c, r, haim, hlit⟩

/-- Settles O45: the second draw has the same origin and rows, so it XORs the same bits again; it meets a lit pixel
exactly where the first turned one on. -/
theorem drawingTwiceRestoresTheGrid : Obligations.DrawingTwiceRestoresTheGrid := by
  intro x y n s hx hy hvalid
  have htouch : ¬touchesInvalid (.drw x y n) s := by
    simp only [touchesInvalid]
    omega
  have hfirst := exec_drw_of_valid s htouch
  generalize hrows : memBytes s.mem s.i.toNat n.toNat = rows at hfirst
  have hframe := drawSprite_frame s x y rows
  have hrx : (s.drawSprite x y rows).reg x = s.reg x := hframe (.reg x) (by simp [hx])
  have hry : (s.drawSprite x y rows).reg y = s.reg y := hframe (.reg y) (by simp [hy])
  have hsecond : exec (.drw x y n) (s.drawSprite x y rows) = .next ((s.drawSprite x y rows).drawSprite x y rows) :=
    hrows ▸ exec_drw_of_valid (s.drawSprite x y _) htouch
  refine ⟨_, _, hfirst, hsecond, grid_ext fun c r hc hr => ?_, ?_⟩
  · rw [px_drawSprite, px_drawSprite, hrx, hry, Bool.xor_assoc, Bool.xor_self, Bool.xor_false]
  · rw [drawSprite_flag, hrx, hry]
    constructor
    · rintro ⟨c, r, haim, hlit⟩
      have hgrid := on_grid_of_px hlit
      refine ⟨c, r, ?_, hlit⟩
      simpa [px_drawSprite, hgrid, haim] using hlit
    · rintro ⟨c, r, hoff, hlit⟩
      refine ⟨c, r, ?_, hlit⟩
      rw [px_drawSprite, hoff, Bool.false_xor, Bool.and_eq_true] at hlit
      exact hlit.2

/-- Settles O46: with no rows the grid is the old one and no collision is recorded. -/
theorem drawOfNoRowsOnlyClearsTheFlag : Obligations.DrawOfNoRowsOnlyClearsTheFlag := by
  intro x y s
  have hexec := exec_drw_of_valid s (x := x) (y := y) (n := 0#4) fun h => absurd h.1 (by decide)
  exact ⟨s.advance.setReg regF 0#8, hexec, rfl, by simp, (sameBut_advance s (by simp)).setReg (by simp) _⟩

/-- The flat form of the display is its rows put one after another. -/
theorem displaySnapshot_eq_flatten (s : State) : displaySnapshot s = s.fb.flatten.toList := by
  rw [displaySnapshot]
  generalize s.fb = g
  obtain ⟨rows, hrows⟩ := g
  simp only [Vector.flatten_mk, Vector.toList_mk, Array.toList_flatten, Array.toList_map, List.map_map]
  rfl

/-- Settles O57: element `64 * y + x` of 32 rows of 64 pixels is pixel `x` of row `y`. -/
theorem snapshotIsRowMajor : Obligations.SnapshotIsRowMajor := by
  intro s
  rw [displaySnapshot_eq_flatten]
  refine ⟨Vector.length_toList, fun x y hx hy => ?_⟩
  have hrow : (64 * y + x) / 64 = y := by omega
  have hcol : (64 * y + x) % 64 = x := by omega
  have hlt : 64 * y + x < 32 * 64 := by omega
  rw [List.getElem?_eq_getElem (by rwa [Vector.length_toList]), Vector.getElem_toList, Vector.getElem_flatten hlt]
  simp [hrow, hcol, px, hx, hy]

end Sys2Proof.Machine
end

section
/-! SUPPORT. The keypad (spec/45_keypad_timers.md R230 to R237): the skips by level, and the key wait step by step. -/

namespace Sys2Proof.Machine

/-- Settles O47: each skip is one write of `PC`, chosen by the level of the key the whole byte names. -/
theorem keySkipsFollowTheLevel : Obligations.KeySkipsFollowTheLevel := by
  refine ⟨encodedAs_of_mem (r := rowX 0xE09E#16 .skp) (by simp [opcodeMap, opcodeMapHigh]),
    encodedAs_of_mem (r := rowX 0xE0A1#16 .sknp) (by simp [opcodeMap, opcodeMapHigh]), fun x s => ?_⟩
  have hlevel := keyLevel_iff s (s.reg x)
  exact ⟨⟨_, exec_skp s x, sameBut_setPc s _, fun h => if_pos (hlevel.2 h), fun h => if_neg (mt hlevel.1 h)⟩,
    ⟨_, exec_sknp s x, sameBut_setPc s _, fun h => if_pos (hlevel.2 h), fun h => if_neg (mt hlevel.1 h)⟩⟩

/-- Settles O49: the lowest key that is down is written to `V[X]`; with none down the state is the one before. -/
theorem keyWaitLoadsTheLowestKeyOrParks : Obligations.KeyWaitLoadsTheLowestKeyOrParks := by
  refine ⟨encodedAs_of_mem (r := rowX 0xF00A#16 .ldXK) (by simp [opcodeMap, opcodeMapHigh]),
    fun x s => ⟨fun k hdown hlower => ?down, fun hnone => ?parked⟩⟩
  case down =>
    refine ⟨_, exec_ldXK_of_some s x (lowestKey_some hdown hlower), rfl, ?_,
      (sameBut_advance s (by simp)).setReg (by simp) _⟩
    have hk : k < 16 := hdown.1
    rw [State.setReg_reg, if_pos rfl, BitVec.toNat_ofNat]
    exact Nat.mod_eq_of_lt (by omega)
  case parked => exact ⟨s, exec_ldXK_of_none s x (lowestKey_none hnone), SameBut.refl _ s⟩

/-- Settles O50: by induction on the steps; a parked step leaves the state for the next but for the tick. -/
theorem parkedKeyWaitOnlyTicks : Obligations.ParkedKeyWaitOnlyTicks := by
  intro s w x n hs hf hd hnone
  induction n generalizing s with
  | zero => exact ⟨s, run_zero s, SameBut.refl _ s, rfl, rfl⟩
  | succ n ih =>
    have hstep : step s = .next s.tickTimers :=
      step_eq_tickTimers hs hf hd (exec_ldXK_of_none s x (lowestKey_none hnone)) rfl
    obtain ⟨t, hrun, hframe, hdt, hst⟩ := ih s.tickTimers hs hf hnone
    refine ⟨t, (run_succ hstep n).trans hrun,
      ((SameBut.refl _ s).tickTimers (by simp) (by simp)).trans hframe, ?_, ?_⟩
    · rw [hdt, State.tickTimers_dt, tick_toNat, Nat.sub_sub, Nat.add_comm]
    · rw [hst, State.tickTimers_st, tick_toNat, Nat.sub_sub, Nat.add_comm]

end Sys2Proof.Machine
end

section
/-! SUPPORT. Reset and the first fetch (spec/10_state.md R27, R45; spec/70_reset_and_hazards.md R290, R294). -/

namespace Sys2Proof.Machine

/-- The default font as `resetByte` reads it (R27). -/
theorem resetByte_font {a : Nat} (h : 0x050 ≤ a) : resetByte a = fontBytes.getD (a - 0x050) 0 := by
  rw [resetByte, if_pos (show fontBase ≤ a from h)]
  rfl

theorem State.reset_reg (r : Reg) : State.reset.reg r = 0#8 := by simp [State.reg, State.reset]

/-- Settles O52: the fields as they are written; memory is all at its reset content. -/
theorem resetStateIsAsTabled : Obligations.ResetStateIsAsTabled := by
  refine ⟨rfl, State.reset_reg, rfl, rfl, rfl, rfl, ?keys, px_clearGrid, rfl, fun a hlow hhigh => ?font,
    fun a ha => ?zeros⟩
  case keys =>
    rintro k ⟨hk, hdown⟩
    simp [State.reset] at hdown
  case font =>
    rw [readByte_ok (by omega)]
    exact congrArg Except.ok (resetByte_font hlow)
  case zeros =>
    rw [readByte_ok (by omega)]
    exact congrArg Except.ok (resetByte_outside (by omega))

/-- Byte `k` of the font as it reads back from the reset memory (R27). -/
theorem readByte_resetMemory_font (font : Vector Byte 80) (k : Nat) (h : k < 80) :
    readByte (resetMemory font) (BitVec.ofNat 16 (0x050 + k)) = .ok font[k] := by
  have haddr : (BitVec.ofNat 16 (0x050 + k)).toNat = 0x050 + k := by
    rw [BitVec.toNat_ofNat]
    exact Nat.mod_eq_of_lt (by omega)
  rw [readByte_ok (by omega), resetMemory_get, dif_pos (by omega)]
  simp [haddr]

/-- Settles O53: the host's reset writes every field but the two that go on. -/
theorem hostResetRestoresTheResetState : Obligations.HostResetRestoresTheResetState := by
  refine fun s => ⟨hostReset s, rfl, fun c hc => ?frame, fun k hk => ?font, rfl, rfl⟩
  case frame =>
    cases c with
    | rndCount | reports => simp at hc
    | mem => exact fun _ => rfl
    | _ => rfl
  case font =>
    rw [hostReset_eq]
    exact readByte_resetMemory_font s.font k hk

/-- Settles O55: the reset sets `PC` to 0x200, and the image's first two bytes are what the load stored there. -/
theorem firstFetchAfterLoadReadsTheImage : Obligations.FirstFetchAfterLoadReadsTheImage := by
  intro s hi lo rest hrest
  have hlen : (hi :: lo :: rest).length ≤ 3584 := by
    simp only [List.length_cons]
    omega
  obtain ⟨-, hload⟩ | ⟨hlong, -⟩ := loadProgram_cases (hi :: lo :: rest) (hostReset s)
  · have hafter : applyMoves [.host .reset, .host (.loadProgram (hi :: lo :: rest))] s =
        (hostReset s).setMem (memSetMany (hostReset s).mem 0x200 (hi :: lo :: rest)) :=
      applyMove_host_of_ok hload
    have hpc : (hostReset s).pc = 0x200#16 := by
      rw [hostReset_eq]
      rfl
    rw [hafter, fetch_ok (by rw [State.setMem_pc, hpc]; decide), State.setMem_pc, State.setMem_mem, hpc,
      memGet_memSetMany, memGet_memSetMany]
    have hsecond : 513 < 512 + (rest.length + 1 + 1) := by omega
    simp [hsecond]
  · omega

/-! ### the font as a parameter -/

/-- With the default font the reset memory lists nothing: it reads like the empty list, and both are canonical. -/
theorem resetMemory_defaultFont : resetMemory defaultFont = [] := by
  refine canonicalMemoriesThatReadAlikeAreEqual _ _ (resetMemory_wf defaultFont) reset_memory_wf fun a => ?_
  refine readByte_congr ?_
  rw [resetMemory_get]
  show _ = resetByte a.toNat
  split
  case isTrue h =>
    rw [resetByte_font h.1, List.getD_eq_getElem _ _ (show a.toNat - 0x050 < 80 by omega)]
    rfl
  case isFalse h => exact (resetByte_outside (by omega)).symm

/-- No move changes the font parameter (R27). -/
theorem applyMove_font (m : Move) (s : State) : (applyMove m s).font = s.font := by
  cases m with
  | step =>
    obtain ⟨t, ht⟩ := everyStepAnswersANextState s
    rw [applyMove_step ht]
    by_cases hs : s.fault = none
    · obtain ⟨-, -, h⟩ | ⟨-, w, hw, -⟩ := step_fault_cases hs
      · rw [Host.Outcome.next.inj (ht.symm.trans h)]
        rfl
      · exact (stepWritesOnlyTheStateNamed s t w hs hw ht).2.1
    · rw [← Host.Outcome.next.inj ((step_of_fault hs).symm.trans ht)]
  | host m =>
    obtain ⟨-, e⟩ | ⟨bytes, -, e⟩ | ⟨keys, e⟩ | e := applyMove_host_cases m s <;> rw [e]
    · exact State.resetWithFont_font s.font
    · rfl
    · rfl

/-- Settles O59: the reset stores the font over the zeros of memory; every move keeps the parameter. -/
theorem fontParameterFillsTheGlyphs : Obligations.FontParameterFillsTheGlyphs := by
  refine ⟨?default, fun font => ⟨State.resetWithFont_font font, fun c hc => ?frame, fun k hk => ?glyphs,
    fun a ha => ?zeros, fun ms => ?moves⟩⟩
  case default =>
    rw [State.resetWithFont_eq, resetMemory_defaultFont]
    rfl
  case frame =>
    rw [State.resetWithFont_eq]
    cases c with
    | mem | font => simp at hc
    | _ => rfl
  case glyphs =>
    rw [State.resetWithFont_mem]
    exact readByte_resetMemory_font font k hk
  case zeros =>
    rw [State.resetWithFont_mem, readByte_ok (by omega), resetMemory_get, dif_neg (by omega)]
    rfl
  case moves => exact applyMoves_induction ms fun m _ s hs => (applyMove_font m s).trans hs

end Sys2Proof.Machine
end
